-- ==== Sys2Proof/Word.lean ====
section
/-! DEFINITION. The machine's words: bytes of the program text, 32-bit CSR and instruction words, and the
XLEN-bit words of the integer registers and the program counter. -/

namespace Sys2Proof

/-- One byte of the program text. -/
abbrev Byte := BitVec 8

/-- A 32-bit word: the register `scounteren` (R11), `mcounteren` (R55), or an instruction (R70). -/
abbrev Word32 := BitVec 32

/-- An XLEN-bit value, held in 64 bits; with XLEN 32 the upper half of a value is 0 (log entry 2). -/
abbrev Word := BitVec 64

/-- The width of the integer registers, the parameter XLEN of R7: 32 or 64 bits. -/
inductive Xlen
  | rv32
  | rv64
deriving DecidableEq, Repr, Inhabited

/-- XLEN as a number of bits (R7). -/
def Xlen.bits : Xlen → Nat
  | .rv32 => 32
  | .rv64 => 64

end Sys2Proof
end

