-- ==== Sys2Proof/Config.lean ====
section
/-! DEFINITION. What the spec leaves open: each is an opaque constant with no body, so that no proof can know its
value and a claim about it holds for every value (`draw`, 00_scope.md section 5). -/

namespace Sys2Proof

/-- The width XLEN of the hart after reset, 32 or 64 (R7, D3); log entry 1. -/
opaque Config.xlen : Xlen

/-- The value drawn for `scounteren` at reset, before the mask of its ten writable bits (R52); log entry 3. -/
opaque Config.resetScounteren : Word32

/-- The value of the input register `mcounteren` (R55); log entry 4. -/
opaque Config.mcounteren : Word32

/-- What the `n`-th permitted counter read of a run returns, before it is cut to XLEN bits (R104); log entry 5. -/
opaque Config.counterDraw : Nat → Word

/-- Whether the implementation records the instruction word, rather than zero, with an illegal-instruction
exception (R122); log entry 11. -/
opaque Config.recordsInstrWord : Bool

end Sys2Proof
end

