-- ==== Sys2Proof/Syntax.lean ====
section
/-! DEFINITION. The six CSR access instructions, one constructor per row of the opcode table. -/

namespace Sys2Proof

/-- The number of an integer register, `x0` to `x31` (R58). -/
abbrev Reg := Fin 32

/-- The index of a counter and of its one-bit field: 0 `cycle` (CY), 1 `time` (TM), 2 `instret` (IR),
`n` from 3 to 31 `hpmcounter`n (HPMn) (R13, R57). -/
abbrev CounterIndex := Fin 32

/-- A CSR operand, with the numbers of R75 turned into constructors. -/
inductive Csr
  /-- `scounteren`, number `0x106`. -/
  | scounteren
  /-- The counter of index `i`, number `0xC00 + i`. -/
  | counter (i : CounterIndex)
  /-- The upper half of the counter of index `i`, number `0xC80 + i`; it exists only with XLEN 32. -/
  | counterH (i : CounterIndex)
  /-- Any other 12-bit number: R75 gives it no meaning. -/
  | other (addr : BitVec 12)
deriving DecidableEq, Repr

/-- The instructions (R71), with their operands (R73). -/
inductive Instr
  /-- `csrrw rd, csr, rs1`: read and write (R82). -/
  | csrrw (rd : Reg) (csr : Csr) (rs1 : Reg)
  /-- `csrrs rd, csr, rs1`: read and set bits (R83). -/
  | csrrs (rd : Reg) (csr : Csr) (rs1 : Reg)
  /-- `csrrc rd, csr, rs1`: read and clear bits (R84). -/
  | csrrc (rd : Reg) (csr : Csr) (rs1 : Reg)
  /-- `csrrwi rd, csr, uimm`: read and write immediate (R85). -/
  | csrrwi (rd : Reg) (csr : Csr) (uimm : BitVec 5)
  /-- `csrrsi rd, csr, uimm`: read and set bits immediate (R86). -/
  | csrrsi (rd : Reg) (csr : Csr) (uimm : BitVec 5)
  /-- `csrrci rd, csr, uimm`: read and clear bits immediate (R87). -/
  | csrrci (rd : Reg) (csr : Csr) (uimm : BitVec 5)
deriving DecidableEq, Repr

/-- The CSR operand of an instruction. -/
def Instr.csr : Instr → Csr
  | .csrrw _ c _ | .csrrs _ c _ | .csrrc _ c _ | .csrrwi _ c _ | .csrrsi _ c _ | .csrrci _ c _ => c

/-- The destination register of an instruction. -/
def Instr.rd : Instr → Reg
  | .csrrw r _ _ | .csrrs r _ _ | .csrrc r _ _ | .csrrwi r _ _ | .csrrsi r _ _ | .csrrci r _ _ => r

end Sys2Proof
end

