-- ==== Sys2Proof/WellFormed.lean ====
section
/-! DEFINITION. The one check the types of `Syntax.lean` leave: a CSR number that R75 names is spelled by its own
constructor, never as `other`. Register numbers, immediates and counter indices are in range by their types. -/

namespace Sys2Proof

/-- Is the number one of R75's counter numbers `0xC00` to `0xC1F`? -/
def Csr.isCounterNumber (a : BitVec 12) : Bool := 0xC00 ≤ a.toNat && a.toNat ≤ 0xC1F

/-- Is the number one of R75's upper-half numbers `0xC80` to `0xC9F`? -/
def Csr.isCounterHNumber (a : BitVec 12) : Bool := 0xC80 ≤ a.toNat && a.toNat ≤ 0xC9F

/-- A CSR operand has one spelling: `other` holds only numbers R75 gives no constructor. -/
def Csr.wellFormed : Csr → Bool
  | .scounteren | .counter _ | .counterH _ => true
  | .other a => a != 0x106#12 && !Csr.isCounterNumber a && !Csr.isCounterHNumber a

/-- An instruction is well formed when its CSR operand is. -/
def Instr.wellFormed (i : Instr) : Bool := i.csr.wellFormed

end Sys2Proof
end

