-- ==== Sys2Proof/Decode.lean ====
section
/-! DEFINITION. Decoding, total on any bytes and rejecting by name (R70 to R76, R79), and the encoder beside it,
written from the same table. -/

namespace Sys2Proof

/-- Why bytes are not one of the six instructions. -/
inductive DecodeError
  /-- Fewer than four bytes: an instruction is one 32-bit word (R72). -/
  | truncated
  /-- The opcode field is not `0x73` (R76, R79). -/
  | notSystemOpcode (w : Word32)
  /-- The opcode is `0x73` and `funct3` is `000` or `100`, which are no CSR instructions (R76). -/
  | notCsrFunct3 (w : Word32)
deriving DecidableEq, Repr

/-- The register a 5-bit field names (R73). -/
def regOfBits (b : BitVec 5) : Reg := ⟨b.toNat, b.isLt⟩

/-- The 5-bit field that names a register (R70). -/
def bitsOfReg (r : Reg) : BitVec 5 := BitVec.ofNat 5 r.val

/-- The number of a CSR (R75). -/
def Csr.addr : Csr → BitVec 12
  | .scounteren => 0x106#12
  | .counter i => 0b1100000#7 ++ bitsOfReg i
  | .counterH i => 0b1100100#7 ++ bitsOfReg i
  | .other a => a

/-- The CSR a number names; the counter index is the low five bits of the number (R75). -/
def Csr.ofAddr (a : BitVec 12) : Csr :=
  if a = 0x106#12 then .scounteren
  else if a.extractLsb' 5 7 = 0b1100000#7 then .counter (regOfBits (a.extractLsb' 0 5))
  else if a.extractLsb' 5 7 = 0b1100100#7 then .counterH (regOfBits (a.extractLsb' 0 5))
  else .other a

/-- The opcode of all six (R70). -/
def systemOpcode : BitVec 7 := 0b1110011#7

/-- Decode one instruction word in the order of R79. The CSR number is looked up when the instruction runs: a
number R75 does not name decodes to `Csr.other` and the access check refuses it (V90 of 95_test_vectors.md). -/
def decodeWord (w : Word32) : Except DecodeError Instr :=
  let csr := Csr.ofAddr (w.extractLsb' 20 12)
  let rs1 := regOfBits (w.extractLsb' 15 5)
  let uimm := w.extractLsb' 15 5
  let funct3 := w.extractLsb' 12 3
  let rd := regOfBits (w.extractLsb' 7 5)
  if w.extractLsb' 0 7 ≠ systemOpcode then .error (.notSystemOpcode w)
  else if funct3 = 0b001#3 then .ok (.csrrw rd csr rs1)
  else if funct3 = 0b010#3 then .ok (.csrrs rd csr rs1)
  else if funct3 = 0b011#3 then .ok (.csrrc rd csr rs1)
  else if funct3 = 0b101#3 then .ok (.csrrwi rd csr uimm)
  else if funct3 = 0b110#3 then .ok (.csrrsi rd csr uimm)
  else if funct3 = 0b111#3 then .ok (.csrrci rd csr uimm)
  else .error (.notCsrFunct3 w)

/-- The instruction word of four bytes, the least significant first (R63). -/
def wordOfBytes (b0 b1 b2 b3 : Byte) : Word32 := b3 ++ b2 ++ b1 ++ b0

/-- The four bytes of an instruction word in the order of their addresses, the least significant first (R63). -/
def bytesOfWord (w : Word32) : List Byte :=
  [w.extractLsb' 0 8, w.extractLsb' 8 8, w.extractLsb' 16 8, w.extractLsb' 24 8]

/-- Decode the instruction at the head of a list of bytes; the answer holds the bytes that follow it (R72). -/
def decode : List Byte → Except DecodeError (Instr × List Byte)
  | b0 :: b1 :: b2 :: b3 :: rest => (decodeWord (wordOfBytes b0 b1 b2 b3)).map fun i => (i, rest)
  | _ => .error .truncated

/-- The instruction word made of its five fields (R70). -/
def encodeFields (csr : BitVec 12) (src : BitVec 5) (funct3 : BitVec 3) (rd : BitVec 5) : Word32 :=
  csr ++ src ++ funct3 ++ rd ++ systemOpcode

/-- The word of an instruction (R70, R71). -/
def encode : Instr → Word32
  | .csrrw rd csr rs1 => encodeFields csr.addr (bitsOfReg rs1) 0b001#3 (bitsOfReg rd)
  | .csrrs rd csr rs1 => encodeFields csr.addr (bitsOfReg rs1) 0b010#3 (bitsOfReg rd)
  | .csrrc rd csr rs1 => encodeFields csr.addr (bitsOfReg rs1) 0b011#3 (bitsOfReg rd)
  | .csrrwi rd csr uimm => encodeFields csr.addr uimm 0b101#3 (bitsOfReg rd)
  | .csrrsi rd csr uimm => encodeFields csr.addr uimm 0b110#3 (bitsOfReg rd)
  | .csrrci rd csr uimm => encodeFields csr.addr uimm 0b111#3 (bitsOfReg rd)

/-- The word of an opcode-table row whose bits are `w`: the bits from `nbits` up are 0. -/
def tableWord (nbits w : Nat) : Word32 := BitVec.ofNat 32 (w % 2 ^ nbits)

/-- What the decoder reads from an instruction whose bits are `w`, laid out as bytes in memory order. -/
def decodeTableWord (nbits w : Nat) : Option Instr :=
  match decode (bytesOfWord (tableWord nbits w)) with
  | .ok (i, _) => some i
  | .error _ => none

end Sys2Proof
end

