-- ==== Sys2Proof/Machine/Fields.lean ====
section
/-! DEFINITION. The register `scounteren` as the source describes it: its 32 one-bit fields and their types
(R13 to R15, R20 to R51), and reading and writing it as a whole (R16, R17). -/

namespace Sys2Proof.Machine

/-- The two field types of R14 and R15. -/
inductive FieldType
  /-- "Read-Write": keeps the bit last written (R14). -/
  | rw
  /-- "Read-Only": hardwired, here to 0; writes are ignored (R15). -/
  | ro
deriving DecidableEq, Repr

/-- The field CY, for `cycle` (R20). -/
def fieldCY : CounterIndex := 0
/-- The field TM, for `time` (R21). -/
def fieldTM : CounterIndex := 1
/-- The field IR, for `instret` (R22). -/
def fieldIR : CounterIndex := 2

/-- The type of the field at each bit: CY, IR and HPM3 to HPM10 are RW, TM and HPM11 to HPM31 are RO (R13). -/
def fieldType (i : CounterIndex) : FieldType :=
  if i = fieldCY ∨ i = fieldIR ∨ (3 ≤ i.val ∧ i.val ≤ 10) then .rw else .ro

/-- `WMASK`, the mask of the writable bits (R6, R18). -/
def wmask : Word32 := 0x000007FD#32

/-- The 32-bit value `scounteren` reads as, given its stored bits: RO bits read 0 (R16). -/
def scounterenRead (stored : Word32) : Word32 := stored &&& wmask

/-- The bits stored by writing `v`: RW bits take the bits of `v`, RO bits ignore them (R17). -/
def scounterenWrite (v : Word32) : Word32 := v &&& wmask

end Sys2Proof.Machine
end

