-- ==== Sys2Proof/Machine/State.lean ====
section
/-! DEFINITION. The state of the hart, the reasons a step can stop, and the state after reset. -/

namespace Sys2Proof.Machine

/-- The privilege modes, `U < S < M` (R54). -/
inductive Mode
  | U
  | S
  | M
deriving DecidableEq, Repr

/-- The order of the privilege modes (R54), numbered as bits 9:8 of a CSR number name them (R74). -/
def Mode.level : Mode → Nat
  | .U => 0
  | .S => 1
  | .M => 3

/-- Everything the spec gives the machine (10_state.md), as plain data. -/
structure State where
  /-- XLEN, a parameter no instruction changes (R7). -/
  xlen : Xlen
  /-- The stored bits of `scounteren` (R18). -/
  scounteren : Word32
  /-- The current privilege mode (R54). -/
  mode : Mode
  /-- True in VS-mode and VU-mode (R54). -/
  virt : Bool
  /-- The integer registers `x1` to `x31`, `x1` first; `x0` has no storage (R58). -/
  x : Vector Word 31
  /-- The address of the instruction being executed (R59). -/
  pc : Word
  /-- The input register `mcounteren`, each field at the bit of the like-named field of `scounteren` (R55). -/
  mcounteren : Word32
  /-- The program text: the bytes of its instruction words, by address (R69, R63). -/
  program : List Host.Cell
  /-- The model's own: how many counter values have been drawn (R57, R104; log entry 5). -/
  draws : Nat
deriving DecidableEq, Repr

/-- The one fault of the spec. -/
inductive Fault
  /-- `IllegalInstruction(instr)`, with the word of the instruction (R121, R122). Raised by a CSR instruction on
  `scounteren` in U-mode, by a writing form on a counter, and by any form on a counter the mode may not access.
  The run ends there. Safe: the hardware goes on to a trap entry the spec leaves open. -/
  | illegalInstruction (instr : Word32)
deriving DecidableEq, Repr

/-- The steps to which the spec gives no meaning. -/
inductive Refusal
  /-- Raised by an arm of exec that has no meaning yet; no arm does. Safe. -/
  | notModelled (mnemonic : String)
  /-- Raised by every step in VS-mode or VU-mode (R106). Safe: the machine goes on where the model stops. -/
  | virtualised
  /-- Raised by a CSR instruction on a number R75 gives no meaning, the upper-half numbers with XLEN 64 among them.
  Safe. -/
  | unknownCsr (addr : BitVec 12)
  /-- Raised by the fetch of a word that is none of the six instructions (R76). Safe. -/
  | notAnInstruction (e : DecodeError)
  /-- Raised by the fetch when `pc` is no multiple of 4, which the spec rules out (R64; log entry 10). Safe. -/
  | misalignedPc (pc : Word)
  /-- Raised by the fetch when `pc` is outside the program text: the end of a run (R69). Safe. -/
  | outsideProgram (pc : Word)
deriving DecidableEq, Repr

/-- The state after reset for one choice of what the spec leaves open: the width, the bits drawn for `scounteren`
(R52, R53, R140) and the input `mcounteren`. Everything else holds the value its log entry names (R141). -/
def State.resetFrom (xlen : Xlen) (drawn mcounteren : Word32) : State where
  xlen := xlen
  scounteren := drawn &&& wmask
  mode := .M
  virt := false
  x := Vector.replicate 31 0
  pc := 0
  mcounteren := mcounteren
  program := []
  draws := 0

/-- The machine right after reset, with every open value free. -/
def State.reset : State :=
  State.resetFrom Config.xlen Config.resetScounteren Config.mcounteren

end Sys2Proof.Machine
end

