-- ==== Sys2Proof/Machine/Ops.lean ====
section
/-! DEFINITION. The operations the meanings share: bytes of the program text, integer registers, the program
counter, `CsrRead` and `CsrWrite` of `scounteren`, a counter draw, and raising the one exception. -/

namespace Sys2Proof.Machine

/-- What a step can answer. -/
abbrev Result := Host.Outcome State Fault Refusal

/-- The canonical form of a program text: addresses strictly rising. An unlisted address has no value, so no entry
can equal what one reads as. -/
abbrev Memory.wf (m : List Host.Cell) : Prop := m.Pairwise fun c d => c.1 < d.1

/-- The byte at an address; none where nothing is listed (R69). -/
def readByte : List Host.Cell → Nat → Option Byte
  | [], _ => none
  | c :: m, a => if c.1 = a then some c.2 else readByte m a

/-- Place a byte at an address, keeping the addresses rising. -/
def writeByte : List Host.Cell → Nat → Byte → List Host.Cell
  | [], a, v => [(a, v)]
  | c :: m, a, v =>
    if a < c.1 then (a, v) :: c :: m
    else if a = c.1 then (a, v) :: m
    else c :: writeByte m a v

/-- Place bytes at consecutive addresses. -/
def writeBytes : List Host.Cell → Nat → List Byte → List Host.Cell
  | m, _, [] => m
  | m, a, v :: vs => writeBytes (writeByte m a v) (a + 1) vs

/-- A value cut to XLEN bits (R7, log entry 2). -/
def toXlen : Xlen → Word → Word
  | .rv32, v => (v.setWidth 32).setWidth 64
  | .rv64, v => v

/-- Read an integer register; `x0` reads 0 (R58). -/
def readX (s : State) (r : Reg) : Word :=
  if r.val = 0 then 0 else s.x[r.val - 1]'(by have := r.isLt; omega)

/-- Write an integer register, XLEN bits wide; a write to `x0` is discarded (R58). -/
def writeX (s : State) (r : Reg) (v : Word) : State :=
  if r.val = 0 then s
  else { s with x := s.x.set (r.val - 1) (toXlen s.xlen v) (by have := r.isLt; omega) }

/-- `pc <- pc + 4`, modulo `2^XLEN` (R59). -/
def advancePc (s : State) : State := { s with pc := toXlen s.xlen (s.pc + 4) }

/-- `CsrRead(0x106)`: the register zero-extended to XLEN bits; a read changes no state (R16). -/
def csrRead (s : State) : Word := (scounterenRead s.scounteren).setWidth 64

/-- `CsrWrite(0x106, v)`: the writable bits of `v[31:0]`; nothing else changes (R17). -/
def csrWrite (s : State) (v : Word) : State :=
  { s with scounteren := scounterenWrite (v.setWidth 32) }

/-- The value of the next counter read, a fresh free value of XLEN bits (R57, R104). -/
def counterValue (s : State) : Word := toXlen s.xlen (Config.counterDraw s.draws)

/-- Count one counter value as drawn, so that the next read is unrelated to this one (R104). -/
def countDraw (s : State) : State := { s with draws := s.draws + 1 }

/-- `raise IllegalInstruction(instr)`: the instruction completes nothing and the step's outcome is the fault with
the instruction's word (R121). What follows on the hardware is the open parameter `TrapEntry`. -/
def raiseIllegal (i : Instr) : Result := .fault (.illegalInstruction (encode i))

/-- The cause code of a fault, for a machine that embeds this one (R122). -/
def causeCode : Fault → Nat
  | .illegalInstruction _ => 2

/-- The value recorded with a fault, for a machine that embeds this one: the instruction word or zero, as the
implementation chooses (R122). -/
def recordedValue : Fault → Word32
  | .illegalInstruction w => if Config.recordsInstrWord then w else 0

end Sys2Proof.Machine
end

