-- ==== Sys2Proof/Machine/Flags.lean ====
section
/-! DEFINITION. The hardware has no condition flags and no instruction writes any (R80, 10_state.md section 7).
The one-bit conditions the spec does compute are here: which counters a mode may access (R100 to R105), and what a
CSR's number says of its access (R74). -/

namespace Sys2Proof.Machine

/-- Is the field of `mcounteren` for counter `i` set (R55)? -/
def mEnabled (s : State) (i : CounterIndex) : Bool := s.mcounteren.getLsbD i.val

/-- Is the field of `scounteren` for counter `i` set (R100)? A hardwired field never is (R102). -/
def sEnabled (s : State) (i : CounterIndex) : Bool := (scounterenRead s.scounteren).getLsbD i.val

/-- `UEnabled(i)`: both like-named fields are set (R100). -/
def uEnabled (s : State) (i : CounterIndex) : Bool := sEnabled s i && mEnabled s i

/-- `CounterAccessible(mode, i)` (R105; the U-mode line is R100 and R101). -/
def counterAccessible (s : State) (i : CounterIndex) : Bool :=
  match s.mode with
  | .M => true
  | .S => mEnabled s i
  | .U => uEnabled s i

/-- Is the CSR read-only by its number? Bits 11:10 of the number say so (R74). -/
def readOnlyByNumber (addr : BitVec 12) : Bool := addr.extractLsb' 10 2 == 0b11#2

/-- The level of the lowest privilege that may access the CSR, bits 9:8 of its number (R74). -/
def lowestLevelByNumber (addr : BitVec 12) : Nat := (addr.extractLsb' 8 2).toNat

end Sys2Proof.Machine
end

