-- ==== Sys2Proof/Machine/Operands.lean ====
section
/-! DEFINITION. The two operand forms of the CSR instructions (R73, step 4 of R80) and which forms read and which
write the CSR (R81). -/

namespace Sys2Proof.Machine

/-- The source of a register form: `x[rs1]`, taken before any register is written (R80). -/
def srcReg (s : State) (rs1 : Reg) : Word := readX s rs1

/-- The source of an immediate form: the 5-bit immediate zero-extended (R73). -/
def srcImm (uimm : BitVec 5) : Word := uimm.setWidth 64

/-- `csrrw` and `csrrwi` read the CSR unless `rd = x0` (R81). -/
def readsUnlessX0 (rd : Reg) : Bool := rd.val != 0

/-- `csrrs` and `csrrc` write the CSR unless the register number `rs1` is 0; its value does not matter (R81). -/
def writesUnlessX0 (rs1 : Reg) : Bool := rs1.val != 0

/-- `csrrsi` and `csrrci` write the CSR unless the immediate field is 0 (R81). -/
def writesUnlessZero (uimm : BitVec 5) : Bool := uimm != 0

end Sys2Proof.Machine
end

