-- ==== Sys2Proof/Machine/Csr.lean ====
section
/-! DEFINITION. The access check (R120, R108), the execution template (R80) and the meanings of the six CSR
instructions (R82 to R87). -/

namespace Sys2Proof.Machine

/-- What the access check answers. -/
inductive Access
  /-- The access to `scounteren` may go on. -/
  | scounteren
  /-- The counter may be read. -/
  | counter
  /-- `raise IllegalInstruction`. -/
  | raise
  /-- The spec gives the step no meaning. -/
  | refuse (r : Refusal)
deriving DecidableEq, Repr

/-- The check for a counter of index `i` under the number `addr`: a form that writes a CSR read-only by its number
raises (R103), and so does a counter the mode may not access (R101, R105); the order cannot be seen (R123). -/
def counterCheck (s : State) (addr : BitVec 12) (i : CounterIndex) (writes : Bool) : Access :=
  if writes && readOnlyByNumber addr then .raise
  else if counterAccessible s i then .counter
  else .raise

/-- `AccessCheck(csr, writes)` (R120, R108). The number `0x106` gives `scounteren` the lowest privilege S
(R12, R74); the upper-half numbers name a CSR only with XLEN 32 (R107). -/
def accessCheck (s : State) (csr : Csr) (writes : Bool) : Access :=
  if s.virt then .refuse .virtualised
  else match csr with
    | .scounteren => if s.mode.level < lowestLevelByNumber csr.addr then .raise else .scounteren
    | .counter i => counterCheck s csr.addr i writes
    | .counterH i =>
      match s.xlen with
      | .rv32 => counterCheck s csr.addr i writes
      | .rv64 => .refuse (.unknownCsr csr.addr)
    | .other a => .refuse (.unknownCsr a)

/-- Steps 5 to 8 of R80 on `scounteren`: read the old value, write the new one, write `rd`, advance `pc`. -/
def accessScounteren (rd : Reg) (reads writes : Bool) (new : Word → Word) (s : State) : State :=
  let old := csrRead s
  let written := if writes then csrWrite s (new old) else s
  advancePc (if reads then writeX written rd old else written)

/-- A permitted counter read: `x[rd] <- draw(XLEN)`, `pc <- pc + 4` (R104). -/
def readCounter (rd : Reg) (s : State) : State :=
  advancePc (writeX (countDraw s) rd (counterValue s))

/-- The execution template of R80 for the instruction `i`, whose form reads and writes as R81 says and whose new
CSR value is `new` of the old one. -/
def csrExecute (i : Instr) (reads writes : Bool) (new : Word → Word) (s : State) : Result :=
  match accessCheck s i.csr writes with
  | .scounteren => .next (accessScounteren i.rd reads writes new s)
  | .counter => .next (readCounter i.rd s)
  | .raise => raiseIllegal i
  | .refuse r => .refused r

/-- `csrrw`: the new value is the source register (R82). -/
def execCsrrw (rd : Reg) (csr : Csr) (rs1 : Reg) (s : State) : Result :=
  csrExecute (.csrrw rd csr rs1) (readsUnlessX0 rd) true (fun _ => srcReg s rs1) s

/-- `csrrs`: the bits of the source register are set (R83). -/
def execCsrrs (rd : Reg) (csr : Csr) (rs1 : Reg) (s : State) : Result :=
  csrExecute (.csrrs rd csr rs1) true (writesUnlessX0 rs1) (fun old => old ||| srcReg s rs1) s

/-- `csrrc`: the bits of the source register are cleared (R84). -/
def execCsrrc (rd : Reg) (csr : Csr) (rs1 : Reg) (s : State) : Result :=
  csrExecute (.csrrc rd csr rs1) true (writesUnlessX0 rs1) (fun old => old &&& ~~~(srcReg s rs1)) s

/-- `csrrwi`: the new value is the immediate (R85). -/
def execCsrrwi (rd : Reg) (csr : Csr) (uimm : BitVec 5) (s : State) : Result :=
  csrExecute (.csrrwi rd csr uimm) (readsUnlessX0 rd) true (fun _ => srcImm uimm) s

/-- `csrrsi`: the bits of the immediate are set (R86). -/
def execCsrrsi (rd : Reg) (csr : Csr) (uimm : BitVec 5) (s : State) : Result :=
  csrExecute (.csrrsi rd csr uimm) true (writesUnlessZero uimm) (fun old => old ||| srcImm uimm) s

/-- `csrrci`: the bits of the immediate are cleared (R87). -/
def execCsrrci (rd : Reg) (csr : Csr) (uimm : BitVec 5) (s : State) : Result :=
  csrExecute (.csrrci rd csr uimm) true (writesUnlessZero uimm) (fun old => old &&& ~~~(srcImm uimm)) s

end Sys2Proof.Machine
end

