-- ==== Sys2Proof/Machine/Fetch.lean ====
section
/-! DEFINITION. Instruction fetch from the program text (R69, R63, R64), and placing an instruction in it. -/

namespace Sys2Proof.Machine

/-- The four bytes from address `a` on; none where one of them is not listed. -/
def fetchBytes (m : List Host.Cell) (a : Nat) : Option (List Byte) :=
  match readByte m a, readByte m (a + 1), readByte m (a + 2), readByte m (a + 3) with
  | some b0, some b1, some b2, some b3 => some [b0, b1, b2, b3]
  | _, _, _, _ => none

/-- The instruction at `pc`, or why there is none: `pc` is misaligned (R64), outside the program text (R69), or at a
word that is none of the six (R76). -/
def fetchInstr (s : State) : Except Refusal Instr :=
  if s.pc.toNat % 4 ≠ 0 then .error (.misalignedPc s.pc)
  else match fetchBytes s.program s.pc.toNat with
    | none => .error (.outsideProgram s.pc)
    | some bs =>
      match decode bs with
      | .ok (i, _) => .ok i
      | .error e => .error (.notAnInstruction e)

/-- The program text with an instruction word placed at `pc`. -/
def placeWord (s : State) (w : Word32) : State :=
  { s with program := writeBytes s.program s.pc.toNat (bytesOfWord w) }

end Sys2Proof.Machine
end

