-- ==== Sys2Proof/Machine/Step.lean ====
section
/-! DEFINITION. One step: the instruction at `pc` is fetched, decoded and executed (R8). -/

namespace Sys2Proof.Machine

/-- One step of the hart (R8). -/
def step (s : State) : Host.Outcome State Fault Refusal :=
  match fetchInstr s with
  | .ok i => exec i s
  | .error r => .refused r

/-- The state with an opcode-table row's instruction placed in the program text at `pc`; this stands for loading a
program from outside (R69, log entry 9). -/
def State.withFetchWord (s : State) (nbits w : Nat) : State := placeWord s (tableWord nbits w)

end Sys2Proof.Machine
end

