-- ==== Sys2Proof/Safety.lean ====
section
/-! DEFINITION. The words the claims are stated in: the invariant of the hart, runs of steps, what an instruction
leaves unchanged, and outcomes of two runs compared. -/

namespace Sys2Proof.Machine

/-- The RO fields of a 32-bit value of `scounteren` are 0: bit 1 and bits 11 to 31 (R18). -/
def RoFieldsZero (v : Word32) : Prop := v &&& 0xFFFFF802#32 = 0

/-- A value fits in XLEN bits (R7). -/
def FitsXlen (xlen : Xlen) (v : Word) : Prop := v.toNat < 2 ^ xlen.bits

/-- The invariant of the hart: the RO fields of `scounteren` are stored as 0 (R18), every integer register and `pc`
fit in XLEN bits (R58, R59), `pc` is a multiple of 4 (R64), and the program text is in canonical form within the
XLEN-bit addresses (R69). -/
structure State.Inv (s : State) : Prop where
  roFields : RoFieldsZero s.scounteren
  regsFit : ∀ r : Reg, FitsXlen s.xlen (readX s r)
  pcFits : FitsXlen s.xlen s.pc
  pcAligned : s.pc.toNat % 4 = 0
  programWf : Memory.wf s.program
  programFits : ∀ c ∈ s.program, c.1 < 2 ^ s.xlen.bits

/-- `Reaches s t`: some number of steps leads from `s` to `t`, none of them a fault or a refusal. -/
inductive Reaches : State → State → Prop
  | refl (s : State) : Reaches s s
  | head {s t u : State} (h : step s = .next t) (rest : Reaches t u) : Reaches s u

/-- The instruction writes `scounteren` (R81). -/
def writesScounteren : Instr → Bool
  | .csrrw _ csr _ | .csrrwi _ csr _ => csr == .scounteren
  | .csrrs _ csr rs1 | .csrrc _ csr rs1 => csr == .scounteren && rs1 != 0
  | .csrrsi _ csr uimm | .csrrci _ csr uimm => csr == .scounteren && uimm != 0

/-- `QuietReaches s t`: steps lead from `s` to `t`, and no instruction among them writes `scounteren`. -/
inductive QuietReaches : State → State → Prop
  | refl (s : State) : QuietReaches s s
  | head {s t u : State} {i : Instr} (fetched : fetchInstr s = .ok i) (quiet : writesScounteren i = false)
      (h : step s = .next t) (rest : QuietReaches t u) : QuietReaches s u

/-- The integer registers of `t` are those of `s`, but `rd` holds `v`; with `rd = x0` none changes (R58). -/
def RegWritten (s t : State) (rd : Reg) (v : Word) : Prop :=
  ∀ r : Reg, readX t r = if r = rd ∧ r ≠ 0 then v else readX s r

/-- `pc` moved on by one instruction, modulo `2^XLEN` (R59). -/
def PcAdvanced (s t : State) : Prop := t.pc.toNat = (s.pc.toNat + 4) % 2 ^ s.xlen.bits

/-- What no instruction of the spec changes: XLEN, the mode, virtualisation, `mcounteren`, and every byte of the
program text (R7, R54, R55, R69). -/
def SameSurroundings (s t : State) : Prop :=
  t.xlen = s.xlen ∧ t.mode = s.mode ∧ t.virt = s.virt ∧ t.mcounteren = s.mcounteren ∧
    ∀ a : Nat, readByte t.program a = readByte s.program a

/-- The hart runs with virtualisation off in S-mode or M-mode, where `scounteren` may be accessed (R12, R106). -/
def MayAccessScounteren (s : State) : Prop := s.virt = false ∧ s.mode ≠ .U

/-- What a completed access to `scounteren` leaves: `rd` holds the old value zero-extended, the register stores
`new`, `pc` moved on, and everything else is as before (R80). -/
def ScounterenAccess (s t : State) (rd : Reg) (new : Word32) : Prop :=
  t.scounteren = new ∧ RegWritten s t rd ((s.scounteren &&& 0x7FD#32).setWidth 64) ∧
    PcAdvanced s t ∧ SameSurroundings s t ∧ t.draws = s.draws

/-- What a completed counter read leaves: `rd` holds the next free value cut to XLEN bits, one more value is drawn,
`pc` moved on, and everything else is as before (R104). -/
def CounterRead (s t : State) (rd : Reg) : Prop :=
  RegWritten s t rd (toXlen s.xlen (Config.counterDraw s.draws)) ∧ t.draws = s.draws + 1 ∧
    PcAdvanced s t ∧ SameSurroundings s t ∧ t.scounteren = s.scounteren

/-- The instruction completes. -/
def Completes (i : Instr) (s : State) : Prop := ∃ t, exec i s = .next t

/-- The instruction raises `IllegalInstruction` with its own word (R121). -/
def Raises (i : Instr) (s : State) : Prop := exec i s = .fault (.illegalInstruction (encode i))

/-- The four forms that read a CSR and do not write it (R81, R103). -/
def pureReads (rd : Reg) (csr : Csr) : List Instr :=
  [.csrrs rd csr 0, .csrrc rd csr 0, .csrrsi rd csr 0, .csrrci rd csr 0]

/-- The six instructions with their operands but for the CSR (R71). -/
def formsOn (rd rs1 : Reg) (uimm : BitVec 5) : List (Csr → Instr) :=
  [fun c => .csrrw rd c rs1, fun c => .csrrs rd c rs1, fun c => .csrrc rd c rs1,
   fun c => .csrrwi rd c uimm, fun c => .csrrsi rd c uimm, fun c => .csrrci rd c uimm]

/-- The index of the counter a CSR operand names, in either half (R75). -/
def counterIndexOf : Csr → Option CounterIndex
  | .counter k | .counterH k => some k
  | .scounteren | .other _ => none

/-- The CSR operand has a meaning at this width: the upper halves only with XLEN 32 (R75, R107). -/
def csrExists (xlen : Xlen) : Csr → Bool
  | .scounteren | .counter _ => true
  | .counterH _ => xlen == .rv32
  | .other _ => false

/-- The CSR operand names the counter of index `k` on this hart (R75, R107). -/
def NamesCounter (s : State) (csr : Csr) (k : CounterIndex) : Prop :=
  counterIndexOf csr = some k ∧ csrExists s.xlen csr = true

/-- `UEnabled(k)` as the one expression of R102. -/
def UserEnabled (s : State) (k : CounterIndex) : Prop :=
  (s.scounteren &&& s.mcounteren &&& 0x7FD#32).getLsbD k.val = true

/-- The table of R109: which counters a mode may read. -/
def MayReadCounter (s : State) (k : CounterIndex) : Prop :=
  match s.mode with
  | .M => True
  | .S => s.mcounteren.getLsbD k.val = true
  | .U => UserEnabled s k

/-- An outcome with its next state changed by `f`; a fault or a refusal is left as it is. -/
def mapNext (f : State → State) : Result → Result
  | .next s => .next (f s)
  | .fault r => .fault r
  | .refused r => .refused r

end Sys2Proof.Machine
end

