-- ==== Sys2Proof/Certificates/Slice0/Obligations.lean ====
section
/-! DEFINITION. The statements for the provers. Each docstring names the rule of spec/ a statement formalises; where
the rule is itself the spec's own decision or inference, or the model's choice, it says so. -/

open Sys2Proof Sys2Proof.Machine

/-! ### Encoding and decoding -/

/-- R70 and R71: the word of each instruction as a number, its match under the mask `0x707F`, and which words access
`scounteren`. -/
def Obligations.EncodingIsTheFormulaOfTheFormat : Prop :=
  (∀ (rd rs1 : Reg) (uimm : BitVec 5) (csr : Csr),
    (encode (.csrrw rd csr rs1)).toNat
      = csr.addr.toNat * 2 ^ 20 + rs1.val * 2 ^ 15 + 1 * 2 ^ 12 + rd.val * 2 ^ 7 + 0x73 ∧
    (encode (.csrrs rd csr rs1)).toNat
      = csr.addr.toNat * 2 ^ 20 + rs1.val * 2 ^ 15 + 2 * 2 ^ 12 + rd.val * 2 ^ 7 + 0x73 ∧
    (encode (.csrrc rd csr rs1)).toNat
      = csr.addr.toNat * 2 ^ 20 + rs1.val * 2 ^ 15 + 3 * 2 ^ 12 + rd.val * 2 ^ 7 + 0x73 ∧
    (encode (.csrrwi rd csr uimm)).toNat
      = csr.addr.toNat * 2 ^ 20 + uimm.toNat * 2 ^ 15 + 5 * 2 ^ 12 + rd.val * 2 ^ 7 + 0x73 ∧
    (encode (.csrrsi rd csr uimm)).toNat
      = csr.addr.toNat * 2 ^ 20 + uimm.toNat * 2 ^ 15 + 6 * 2 ^ 12 + rd.val * 2 ^ 7 + 0x73 ∧
    (encode (.csrrci rd csr uimm)).toNat
      = csr.addr.toNat * 2 ^ 20 + uimm.toNat * 2 ^ 15 + 7 * 2 ^ 12 + rd.val * 2 ^ 7 + 0x73 ∧
    encode (.csrrw rd csr rs1) &&& 0x707F#32 = 0x1073#32 ∧
    encode (.csrrs rd csr rs1) &&& 0x707F#32 = 0x2073#32 ∧
    encode (.csrrc rd csr rs1) &&& 0x707F#32 = 0x3073#32 ∧
    encode (.csrrwi rd csr uimm) &&& 0x707F#32 = 0x5073#32 ∧
    encode (.csrrsi rd csr uimm) &&& 0x707F#32 = 0x6073#32 ∧
    encode (.csrrci rd csr uimm) &&& 0x707F#32 = 0x7073#32) ∧
  (∀ i : Instr, i.wellFormed = true →
    (i.csr = .scounteren ↔ encode i &&& 0xFFF00000#32 = 0x10600000#32))

/-- Every well-formed instruction, with every operand at every value its field admits, is what the decoder reads from
its bytes in memory order, and the bytes that follow are left. Rests on R63 and R70 to R75; an unknown CSR number as an
operand is the model's choice (log entry 13). -/
def Obligations.DecodeOfEncodeIsTheInstruction : Prop :=
  ∀ (i : Instr) (rest : List Byte), i.wellFormed = true →
    decode (bytesOfWord (encode i) ++ rest) = .ok (i, rest)

/-- Every word the decoder accepts is the encoding of the well-formed instruction it reads: no bit is dropped and no
two words are one instruction. Rests on R70 to R75 and, for an unknown CSR number, on log entry 13. -/
def Obligations.EncodeOfDecodeIsTheWord : Prop :=
  ∀ (w : Word32) (i : Instr), decodeWord w = .ok i → encode i = w ∧ i.wellFormed = true

/-- The words that are refused: those whose opcode is not `0x73` or whose `funct3` is `000` or `100`, each by name.
The first two clauses rest on R76 and R79, which are the spec's decision D1. That every other word decodes, one on a CSR
number R75 does not list among them, is the model's choice (log entry 13): R79 has the decoder look the number up and
refuse it there, while this decoder reads such a word as an instruction on `Csr.other`, refused when it runs. -/
def Obligations.DecodeRefusesExactlyTheOtherWords : Prop :=
  ∀ w : Word32,
    (decodeWord w = .error (.notSystemOpcode w) ↔ w &&& 0x7F#32 ≠ 0x73#32) ∧
    (decodeWord w = .error (.notCsrFunct3 w) ↔
      w &&& 0x7F#32 = 0x73#32 ∧ (w.extractLsb' 12 3 = 0b000#3 ∨ w.extractLsb' 12 3 = 0b100#3)) ∧
    ((∃ i, decodeWord w = .ok i) ↔
      w &&& 0x7F#32 = 0x73#32 ∧ w.extractLsb' 12 3 ≠ 0b000#3 ∧ w.extractLsb' 12 3 ≠ 0b100#3)

/-- The words written out in 95_test_vectors.md section 2.6: V80 to V86 decode to the instructions listed, V87 to V89
are refused. V90 the spec lists as refused for its CSR number; that it decodes to an instruction on `Csr.other`, refused
when it runs, is the model's choice (log entry 13). -/
def Obligations.WordsOfTheSpecDecode : Prop :=
  decodeWord 0x10651073#32 = .ok (.csrrw 0 .scounteren 10) ∧
  decodeWord 0x10602573#32 = .ok (.csrrs 10 .scounteren 0) ∧
  decodeWord 0x1065B573#32 = .ok (.csrrc 10 .scounteren 11) ∧
  decodeWord 0x106FD073#32 = .ok (.csrrwi 0 .scounteren 31#5) ∧
  decodeWord 0x1062E073#32 = .ok (.csrrsi 0 .scounteren 5#5) ∧
  decodeWord 0x1062F073#32 = .ok (.csrrci 0 .scounteren 5#5) ∧
  decodeWord 0xC0002573#32 = .ok (.csrrs 10 (.counter 0) 0) ∧
  decodeWord 0x10600073#32 = .error (.notCsrFunct3 0x10600073#32) ∧
  decodeWord 0x10604073#32 = .error (.notCsrFunct3 0x10604073#32) ∧
  decodeWord 0x10651033#32 = .error (.notSystemOpcode 0x10651033#32) ∧
  decodeWord 0x30602573#32 = .ok (.csrrs 10 (.other 0x306#12) 0)

/-- The CSR numbers: `0x106` is `scounteren`, `0xC00 + k` the counter of index `k`, `0xC80 + k` its upper half, and
every other number is kept as it is. Rests on the table of R75, which but for `0x106` is the spec's decision D1; keeping
an unknown number as an operand is the model's choice (log entry 13). -/
def Obligations.CsrNumbersNameTheirRegisters : Prop :=
  ∀ a : BitVec 12,
    (Csr.ofAddr a = .scounteren ↔ a.toNat = 0x106) ∧
    (∀ k : CounterIndex, Csr.ofAddr a = .counter k ↔ a.toNat = 0xC00 + k.val) ∧
    (∀ k : CounterIndex, Csr.ofAddr a = .counterH k ↔ a.toNat = 0xC80 + k.val) ∧
    (∀ b : BitVec 12, Csr.ofAddr a = .other b ↔
      b = a ∧ a.toNat ≠ 0x106 ∧ ¬(0xC00 ≤ a.toNat ∧ a.toNat ≤ 0xC1F) ∧ ¬(0xC80 ≤ a.toNat ∧ a.toNat ≤ 0xC9F))

/-! ### A step -/

/-- When the four bytes at an aligned `pc` decode to an instruction, the step is that instruction's meaning at the same
state; nothing is added around it (`pc` is advanced by the meaning, step 8 of R80). Rests on R8, R63, R69. -/
def Obligations.StepRunsTheDecodedInstruction : Prop :=
  ∀ (s : State) (b0 b1 b2 b3 : Byte) (i : Instr) (rest : List Byte),
    s.pc.toNat % 4 = 0 →
    readByte s.program s.pc.toNat = some b0 → readByte s.program (s.pc.toNat + 1) = some b1 →
    readByte s.program (s.pc.toNat + 2) = some b2 → readByte s.program (s.pc.toNat + 3) = some b3 →
    decode [b0, b1, b2, b3] = .ok (i, rest) →
    step s = exec i s

/-- A step whose `pc` is outside the program text is refused: some byte of the word at `pc` is not listed. R69, the
spec's decision D15. That a misaligned `pc` is refused is the model's choice (log entry 10). -/
def Obligations.StepOutsideTheProgramIsRefused : Prop :=
  ∀ s : State,
    (s.pc.toNat % 4 = 0 → (∃ k < 4, readByte s.program (s.pc.toNat + k) = none) →
      step s = .refused (.outsideProgram s.pc)) ∧
    (s.pc.toNat % 4 ≠ 0 → step s = .refused (.misalignedPc s.pc))

/-- An instruction placed at an aligned `pc` is what the next step runs. The placing stands for loading a program from
outside (log entry 9). -/
def Obligations.PlacedInstructionRunsNext : Prop :=
  ∀ (s : State) (i : Instr), s.pc.toNat % 4 = 0 → i.wellFormed = true →
    step (s.withFetchWord 32 (encode i).toNat) = exec i (s.withFetchWord 32 (encode i).toNat)

/-- Every step in VS-mode or VU-mode is refused, whatever stands at `pc`, and so is every instruction. R106, the
spec's decision D2. -/
def Obligations.VirtualisedStepsAreRefused : Prop :=
  ∀ s : State, s.virt = true →
    (∀ i : Instr, exec i s = .refused .virtualised) ∧ (∃ r, step s = .refused r) ∧
    (∀ i : Instr, fetchInstr s = .ok i → step s = .refused .virtualised)

/-- What a completed step leaves, for every instruction: `pc` has moved on by 4 modulo `2^XLEN`; XLEN, the mode,
virtualisation, `mcounteren` and every byte of the program text are as before; no integer register but the destination
has changed, and `x0` reads 0. Rests on R54, R55, R58, R59, R69, R80, R91. -/
def Obligations.StepChangesOnlyPcDestinationAndCsr : Prop :=
  ∀ s t : State, step s = .next t →
    ∃ i : Instr, fetchInstr s = .ok i ∧ PcAdvanced s t ∧ SameSurroundings s t ∧
      (∀ r : Reg, r ≠ i.rd → readX t r = readX s r) ∧ readX t 0 = 0

/-! ### The six instructions on scounteren -/

/-- R82: `csrrw` on `scounteren`, its encoding, its exception, its result and its frame. -/
def Obligations.CsrrwReadsAndWritesScounteren : Prop :=
  ∀ rd rs1 : Reg,
    encode (.csrrw rd .scounteren rs1) &&& 0x707F#32 = 0x1073#32 ∧
    (∀ s : State, s.virt = false → s.mode = .U → Raises (.csrrw rd .scounteren rs1) s) ∧
    (∀ s : State, MayAccessScounteren s → ∃ t, exec (.csrrw rd .scounteren rs1) s = .next t ∧
      ScounterenAccess s t rd ((readX s rs1).setWidth 32 &&& 0x7FD#32))

/-- R83: `csrrs` on `scounteren`. With `rs1 = x0` the register is not written. -/
def Obligations.CsrrsReadsAndSetsScounteren : Prop :=
  ∀ rd rs1 : Reg,
    encode (.csrrs rd .scounteren rs1) &&& 0x707F#32 = 0x2073#32 ∧
    (∀ s : State, s.virt = false → s.mode = .U → Raises (.csrrs rd .scounteren rs1) s) ∧
    (∀ s : State, MayAccessScounteren s → ∃ t, exec (.csrrs rd .scounteren rs1) s = .next t ∧
      ScounterenAccess s t rd
        (if rs1 = 0 then s.scounteren else (s.scounteren ||| (readX s rs1).setWidth 32) &&& 0x7FD#32))

/-- R84: `csrrc` on `scounteren`. With `rs1 = x0` the register is not written. -/
def Obligations.CsrrcReadsAndClearsScounteren : Prop :=
  ∀ rd rs1 : Reg,
    encode (.csrrc rd .scounteren rs1) &&& 0x707F#32 = 0x3073#32 ∧
    (∀ s : State, s.virt = false → s.mode = .U → Raises (.csrrc rd .scounteren rs1) s) ∧
    (∀ s : State, MayAccessScounteren s → ∃ t, exec (.csrrc rd .scounteren rs1) s = .next t ∧
      ScounterenAccess s t rd
        (if rs1 = 0 then s.scounteren else s.scounteren &&& ~~~((readX s rs1).setWidth 32) &&& 0x7FD#32))

/-- R85: `csrrwi` on `scounteren`: the write replaces the whole register, so only bits 0, 2, 3 and 4 can be set. -/
def Obligations.CsrrwiReadsAndWritesScounteren : Prop :=
  ∀ (rd : Reg) (uimm : BitVec 5),
    encode (.csrrwi rd .scounteren uimm) &&& 0x707F#32 = 0x5073#32 ∧
    (∀ s : State, s.virt = false → s.mode = .U → Raises (.csrrwi rd .scounteren uimm) s) ∧
    (∀ s : State, MayAccessScounteren s → ∃ t, exec (.csrrwi rd .scounteren uimm) s = .next t ∧
      ScounterenAccess s t rd (uimm.setWidth 32 &&& 0x1D#32))

/-- R86: `csrrsi` on `scounteren`. With `uimm = 0` the register is not written. -/
def Obligations.CsrrsiReadsAndSetsScounteren : Prop :=
  ∀ (rd : Reg) (uimm : BitVec 5),
    encode (.csrrsi rd .scounteren uimm) &&& 0x707F#32 = 0x6073#32 ∧
    (∀ s : State, s.virt = false → s.mode = .U → Raises (.csrrsi rd .scounteren uimm) s) ∧
    (∀ s : State, MayAccessScounteren s → ∃ t, exec (.csrrsi rd .scounteren uimm) s = .next t ∧
      ScounterenAccess s t rd
        (if uimm = 0 then s.scounteren else (s.scounteren ||| uimm.setWidth 32) &&& 0x7FD#32))

/-- R87: `csrrci` on `scounteren`. With `uimm = 0` the register is not written. -/
def Obligations.CsrrciReadsAndClearsScounteren : Prop :=
  ∀ (rd : Reg) (uimm : BitVec 5),
    encode (.csrrci rd .scounteren uimm) &&& 0x707F#32 = 0x7073#32 ∧
    (∀ s : State, s.virt = false → s.mode = .U → Raises (.csrrci rd .scounteren uimm) s) ∧
    (∀ s : State, MayAccessScounteren s → ∃ t, exec (.csrrci rd .scounteren uimm) s = .next t ∧
      ScounterenAccess s t rd
        (if uimm = 0 then s.scounteren else s.scounteren &&& ~~~(uimm.setWidth 32) &&& 0x7FD#32))

/-- R90: with `rd = rs1` the source is read before the destination is written, in every register form. -/
def Obligations.SourceIsReadBeforeDestinationIsWritten : Prop :=
  ∀ (s : State) (r : Reg), MayAccessScounteren s → r ≠ 0 →
    (∃ t, exec (.csrrw r .scounteren r) s = .next t ∧ t.scounteren = (readX s r).setWidth 32 &&& 0x7FD#32 ∧
      readX t r = (s.scounteren &&& 0x7FD#32).setWidth 64) ∧
    (∃ t, exec (.csrrs r .scounteren r) s = .next t ∧
      t.scounteren = (s.scounteren ||| (readX s r).setWidth 32) &&& 0x7FD#32 ∧
      readX t r = (s.scounteren &&& 0x7FD#32).setWidth 64) ∧
    (∃ t, exec (.csrrc r .scounteren r) s = .next t ∧
      t.scounteren = s.scounteren &&& ~~~((readX s r).setWidth 32) &&& 0x7FD#32 ∧
      readX t r = (s.scounteren &&& 0x7FD#32).setWidth 64)

/-- Swapping a register with `scounteren` twice restores the register file's ten writable bits only: program P6 of
95_test_vectors.md, for every state. Rests on R82, R17 and R18. -/
def Obligations.SwappingTwiceKeepsTheWritableBits : Prop :=
  ∀ (s : State) (r : Reg), MayAccessScounteren s → r ≠ 0 →
    ∃ t u, exec (.csrrw r .scounteren r) s = .next t ∧ exec (.csrrw r .scounteren r) t = .next u ∧
      u.scounteren = s.scounteren &&& 0x7FD#32 ∧
      readX u r = ((readX s r).setWidth 32 &&& 0x7FD#32).setWidth 64

/-! ### The two field types -/

/-- R14: no value written is refused, and every RW bit keeps what was written through any run in which no instruction
writes the register: every later read returns it. -/
def Obligations.WritableBitsAreRetainedUntilTheNextWrite : Prop :=
  ∀ (s : State) (rd rs1 : Reg), MayAccessScounteren s →
    ∃ t, exec (.csrrw rd .scounteren rs1) s = .next t ∧
      ∀ (u : State) (rd' : Reg), QuietReaches t u → rd' ≠ 0 →
        ∃ v, exec (.csrrs rd' .scounteren 0) u = .next v ∧
          ∀ k : CounterIndex, fieldType k = .rw →
            (readX v rd').getLsbD k.val = (readX s rs1).getLsbD k.val

/-- An RO bit reads 0 in every state; a write of 1 to it is ignored without an exception, and the write to the RW bits
of the register still takes place. Rests on the two sentences of R15 that the spec itself infers, from the definition of
type RO and the reset value of R53; that the bits read 0 in unreachable states too comes from the masked read of R16
(log entry 21). -/
def Obligations.ReadOnlyBitsIgnoreWritesAndReadZero : Prop :=
  ∀ s : State, MayAccessScounteren s →
    (∀ rd rs1 : Reg, ∃ t, exec (.csrrw rd .scounteren rs1) s = .next t ∧
      ∀ k : CounterIndex, t.scounteren.getLsbD k.val
        = (decide (fieldType k = .rw) && (readX s rs1).getLsbD k.val)) ∧
    (∀ i : Instr, i.csr = .scounteren → ∃ t, exec i s = .next t ∧
      ∀ k : CounterIndex, fieldType k = .ro →
        (writesScounteren i = true → t.scounteren.getLsbD k.val = false) ∧
        (scounterenRead t.scounteren).getLsbD k.val = false) ∧
    (∀ rd : Reg, rd ≠ 0 → ∃ t, exec (.csrrs rd .scounteren 0) s = .next t ∧
      ∀ k : CounterIndex, fieldType k = .ro → (readX t rd).getLsbD k.val = false)

/-- R53: every RO field is 0 after every reset, and stays 0 along every run from any state in which it is 0. -/
def Obligations.ReadOnlyFieldsStayZero : Prop :=
  (∀ (xlen : Xlen) (drawn mcounteren : Word32), RoFieldsZero (State.resetFrom xlen drawn mcounteren).scounteren) ∧
  RoFieldsZero State.reset.scounteren ∧
  (∀ s t : State, RoFieldsZero s.scounteren → Reaches s t → RoFieldsZero t.scounteren)

/-- `scounteren` changes only when an instruction that writes it completes, which is never in U-mode. Rests on R126,
R147 (the spec's decisions D8, D15) and R12 (D7). -/
def Obligations.ScounterenChangesOnlyByItsWrites : Prop :=
  ∀ s t : State, step s = .next t → t.scounteren ≠ s.scounteren →
    s.mode ≠ .U ∧ ∃ i : Instr, fetchInstr s = .ok i ∧ writesScounteren i = true

/-! ### The counters -/

/-- A form that writes raises on every counter, in every mode, and the only forms that can read a counter are the four
that do not write: R103. That in M-mode each of the four completes is R105, the spec's decision D11 (log entry 15). -/
def Obligations.WritingFormsRaiseOnCounters : Prop :=
  ∀ (s : State) (csr : Csr) (k : CounterIndex), s.virt = false → NamesCounter s csr k →
    (∀ rd rs1 : Reg, Raises (.csrrw rd csr rs1) s) ∧
    (∀ (rd : Reg) (uimm : BitVec 5), Raises (.csrrwi rd csr uimm) s) ∧
    (∀ rd rs1 : Reg, rs1 ≠ 0 → Raises (.csrrs rd csr rs1) s ∧ Raises (.csrrc rd csr rs1) s) ∧
    (∀ (rd : Reg) (uimm : BitVec 5), uimm ≠ 0 → Raises (.csrrsi rd csr uimm) s ∧ Raises (.csrrci rd csr uimm) s) ∧
    (∀ i : Instr, i.csr = csr → Completes i s → i ∈ pureReads i.rd csr) ∧
    (s.mode = .M → ∀ rd : Reg, ∀ i ∈ pureReads rd csr, Completes i s)

/-- A permitted counter read puts the next free value, cut to XLEN bits, into `rd`, moves `pc` on, and changes nothing
else; the next read is a separate draw. Holds for every value of the free value. R104 (the spec's decision D10), in
the modes of R100, R101 and R105 (its decisions D5 and D11, log entries 15 and 16); that a read counts as drawn with
`rd = x0` too is the model's choice (log entry 5). -/
def Obligations.PermittedCounterReadIsADraw : Prop :=
  ∀ (s : State) (csr : Csr) (k : CounterIndex), s.virt = false → NamesCounter s csr k → MayReadCounter s k →
    ∀ rd : Reg, ∀ i ∈ pureReads rd csr, ∃ t, exec i s = .next t ∧ CounterRead s t rd

/-- U-mode: a non-writing read of counter `k` completes when both like-named enable bits are set, and raises when one
of them is clear. R100; the second direction is the spec's decision D5 (R101). -/
def Obligations.UserCounterAccessNeedsBothEnables : Prop :=
  ∀ (s : State) (csr : Csr) (k : CounterIndex), s.virt = false → s.mode = .U → NamesCounter s csr k →
    ∀ rd : Reg, ∀ i ∈ pureReads rd csr, (UserEnabled s k → Completes i s) ∧ (¬ UserEnabled s k → Raises i s)

/-- `time` and `hpmcounter11` to `hpmcounter31` are never accessible to U-mode: every instruction that names one of
them raises, whatever `scounteren` and `mcounteren` hold; and each of the other ten counters is accessible in some
state. R102, which the spec derives from R15, R53, R100 and R101. -/
def Obligations.HardwiredCountersAreClosedToUserMode : Prop :=
  (∀ (s : State) (i : Instr) (k : CounterIndex), s.virt = false → s.mode = .U → NamesCounter s i.csr k →
    k = fieldTM ∨ 11 ≤ k.val → Raises i s) ∧
  (∀ k : CounterIndex, k ≠ fieldTM → k.val ≤ 10 → ∀ (s : State) (rd : Reg), s.virt = false → s.mode = .U →
    Completes (.csrrs rd (.counter k) 0) { s with scounteren := 0x7FD#32, mcounteren := 0xFFFFFFFF#32 })

/-- M-mode reads every counter; S-mode reads counter `k` exactly when `mcounteren[k]` is set and raises otherwise.
R105, the spec's decision D11. -/
def Obligations.SupervisorCounterAccessNeedsMcounteren : Prop :=
  ∀ (s : State) (csr : Csr) (k : CounterIndex), s.virt = false → NamesCounter s csr k →
    ∀ rd : Reg, ∀ i ∈ pureReads rd csr,
      (s.mode = .M → Completes i s) ∧
      (s.mode = .S → s.mcounteren.getLsbD k.val = true → Completes i s) ∧
      (s.mode = .S → s.mcounteren.getLsbD k.val = false → Raises i s)

/-- `scounteren` plays no part in what S-mode and M-mode do with the counters: with another value in it, each
instruction that names a counter has the same outcome. R19 and R105, the spec's decisions D8 and D11. -/
def Obligations.ScounterenDoesNotGateSupervisorCounters : Prop :=
  ∀ (s : State) (i : Instr) (k : CounterIndex) (v : Word32), s.mode ≠ .U → counterIndexOf i.csr = some k →
    exec i { s with scounteren := v } = mapNext (fun t => { t with scounteren := v }) (exec i s)

/-- With XLEN 32 the upper half of a counter is gated as its lower half is; with XLEN 64 its number is refused. R107,
the spec's decision D3. -/
def Obligations.UpperHalvesAreGatedAsLowerHalves : Prop :=
  ∀ (s : State) (k : CounterIndex) (rd rs1 : Reg) (uimm : BitVec 5), ∀ f ∈ formsOn rd rs1 uimm,
    (s.xlen = .rv32 → (Completes (f (.counterH k)) s ↔ Completes (f (.counter k)) s) ∧
      (Raises (f (.counterH k)) s ↔ Raises (f (.counter k)) s)) ∧
    (s.xlen = .rv64 → s.virt = false →
      exec (f (.counterH k)) s = .refused (.unknownCsr (BitVec.ofNat 12 (0xC80 + k.val))))

/-- A CSR number the spec gives no meaning is refused by each of the six instructions, `mcounteren` (`0x306`),
`hcounteren` (`0x606`) and `mcycle` (`0xB00`) among them. R75, the spec's decision D1; that the refusal comes when the
instruction runs is the model's choice (log entry 13). -/
def Obligations.UnknownCsrNumbersAreRefused : Prop :=
  (∀ (s : State) (a : BitVec 12) (rd rs1 : Reg) (uimm : BitVec 5), s.virt = false →
    ∀ f ∈ formsOn rd rs1 uimm, exec (f (.other a)) s = .refused (.unknownCsr a)) ∧
  Csr.ofAddr 0x306#12 = .other 0x306#12 ∧ Csr.ofAddr 0x606#12 = .other 0x606#12 ∧
  Csr.ofAddr 0xB00#12 = .other 0xB00#12

/-! ### Faults and refusals -/

/-- Exactly when an instruction raises: on `scounteren` in U-mode, on a counter in a form that writes, and on a counter
the mode may not read; always `IllegalInstruction` with the instruction's word. R120 and R122, the spec's decision D7;
which mode may read a counter is R100, R101 and R105, its decisions D5 and D11 (log entries 15 and 16). -/
def Obligations.InstructionRaisesExactlyWhenDenied : Prop :=
  ∀ (i : Instr) (s : State) (r : Fault),
    exec i s = .fault r ↔
      r = .illegalInstruction (encode i) ∧ s.virt = false ∧
        ((i.csr = .scounteren ∧ s.mode = .U) ∨
          ∃ k, NamesCounter s i.csr k ∧ (i ∉ pureReads i.rd i.csr ∨ ¬ MayReadCounter s k))

/-- Exactly when an instruction is refused: in VS-mode and VU-mode, and on a CSR number with no meaning at this XLEN.
R106 and R120, the spec's decisions D1 and D2. -/
def Obligations.InstructionIsRefusedExactlyWhenMeaningless : Prop :=
  ∀ (i : Instr) (s : State),
    (∃ r, exec i s = .refused r) ↔ s.virt = true ∨ csrExists s.xlen i.csr = false

/-- A step that faults does so with the very word at `pc`; the cause code is 2 and the recorded value is the word or
zero, as the implementation chooses. R121 and R122, the spec's decision D9. -/
def Obligations.FaultCarriesTheWordAtPc : Prop :=
  ∀ (s : State) (r : Fault), step s = .fault r →
    ∃ b0 b1 b2 b3, readByte s.program s.pc.toNat = some b0 ∧ readByte s.program (s.pc.toNat + 1) = some b1 ∧
      readByte s.program (s.pc.toNat + 2) = some b2 ∧ readByte s.program (s.pc.toNat + 3) = some b3 ∧
      r = .illegalInstruction (wordOfBytes b0 b1 b2 b3) ∧ causeCode r = 2 ∧
      (recordedValue r = wordOfBytes b0 b1 b2 b3 ∨ recordedValue r = 0)

/-! ### Order, boot and what U-mode can learn -/

/-- A write governs the very next instruction: after `csrrw` the U-mode check reads the value just written, and after
`csrrci scounteren, 1` U-mode `rdcycle` raises. R66 and R110 (the spec's decision D14; R110 is its inference), and D5 for
the raising (log entry 16). The change to U-mode is by an instruction out of scope. -/
def Obligations.WriteGovernsTheNextAccess : Prop :=
  ∀ (s t : State) (rd : Reg), MayAccessScounteren s →
    (∀ rs1 : Reg, exec (.csrrw rd .scounteren rs1) s = .next t →
      ∀ (csr : Csr) (k : CounterIndex) (rd' : Reg), NamesCounter s csr k → ∀ i ∈ pureReads rd' csr,
        (((readX s rs1).setWidth 32 &&& s.mcounteren &&& 0x7FD#32).getLsbD k.val = true →
          Completes i { t with mode := .U }) ∧
        (((readX s rs1).setWidth 32 &&& s.mcounteren &&& 0x7FD#32).getLsbD k.val = false →
          Raises i { t with mode := .U })) ∧
    (exec (.csrrci rd .scounteren 1#5) s = .next t →
      ∀ rd' : Reg, Raises (.csrrs rd' (.counter 0) 0) { t with mode := .U })

/-- After `csrw scounteren, zero` no instruction of U-mode reads a counter, whatever reset left in the register and
whatever `mcounteren` holds. R143, the spec's inference and decision D17, and D5 for the raising (log entry 16). -/
def Obligations.ClearingScounterenClosesEveryCounter : Prop :=
  ∀ s : State, MayAccessScounteren s →
    ∃ t, exec (.csrrw 0 .scounteren 0) s = .next t ∧
      ∀ (i : Instr) (k : CounterIndex), NamesCounter s i.csr k → Raises i { t with mode := .U }

/-- U-mode learns nothing of `scounteren` but which counters it may read: with two values that agree on the enabled
writable bits, a step has the same outcome. Rests on R12, R19 and R102, which are the spec's decisions and inference. -/
def Obligations.UserModeCannotTellScounterenApart : Prop :=
  ∀ (s : State) (v w : Word32), s.mode = .U → v &&& s.mcounteren &&& 0x7FD#32 = w &&& s.mcounteren &&& 0x7FD#32 →
    step { s with scounteren := w }
      = mapNext (fun t => { t with scounteren := w }) (step { s with scounteren := v })

/-! ### Reset and the invariant -/

/-- After reset `scounteren` may hold every legal value and no other, for each draw of the ten unspecified bits. R52,
the spec's decision D4. -/
def Obligations.ResetAdmitsExactlyTheLegalValues : Prop :=
  ∀ (xlen : Xlen) (mcounteren v : Word32),
    (∃ drawn, (State.resetFrom xlen drawn mcounteren).scounteren = v) ↔ RoFieldsZero v

/-- After reset U-mode may or may not reach each of the ten counters it can be given: some draw lets it read and some
draw does not (X4 and X5 of 95_test_vectors.md). R143, R52 and R101, the spec's inference and decisions (log entry 16);
that U-mode follows reset is this statement's launch state, the model's own reset mode is M (log entry 8). -/
def Obligations.ResetLeavesUserAccessOpen : Prop :=
  ∀ (xlen : Xlen) (k : CounterIndex) (rd : Reg), fieldType k = .rw →
    (∃ drawn, Completes (.csrrs rd (.counter k) 0)
      { State.resetFrom xlen drawn 0xFFFFFFFF#32 with mode := .U }) ∧
    (∃ drawn, Raises (.csrrs rd (.counter k) 0)
      { State.resetFrom xlen drawn 0xFFFFFFFF#32 with mode := .U })

/-- The invariant holds after reset, whatever the draws. The reset values of the registers are the model's choice (log
entries 6, 7, 8, 9); that of `scounteren` is R52 and R53. -/
def Obligations.ResetMeetsTheInvariant : Prop :=
  State.reset.Inv ∧ ∀ (xlen : Xlen) (drawn mcounteren : Word32), (State.resetFrom xlen drawn mcounteren).Inv

/-- Every step keeps the invariant. Rests on R18, R58, R59, R64, R69 (inferences and decisions of the spec). -/
def Obligations.EveryStepKeepsTheInvariant : Prop :=
  ∀ s t : State, s.Inv → step s = .next t → t.Inv
end

