-- ==== Sys2Proof/Laws/State.lean ====
section
/-! SUPPORT. One lemma per field per update of the state, so that no proof unfolds a record update. -/

namespace Sys2Proof.Machine

section
variable (s : State) (r : Reg) (v : Word) (w : Word32)

@[simp] theorem writeX_xlen : (writeX s r v).xlen = s.xlen := by unfold writeX; split <;> rfl
@[simp] theorem writeX_scounteren : (writeX s r v).scounteren = s.scounteren := by unfold writeX; split <;> rfl
@[simp] theorem writeX_mode : (writeX s r v).mode = s.mode := by unfold writeX; split <;> rfl
@[simp] theorem writeX_virt : (writeX s r v).virt = s.virt := by unfold writeX; split <;> rfl
@[simp] theorem writeX_pc : (writeX s r v).pc = s.pc := by unfold writeX; split <;> rfl
@[simp] theorem writeX_mcounteren : (writeX s r v).mcounteren = s.mcounteren := by unfold writeX; split <;> rfl
@[simp] theorem writeX_program : (writeX s r v).program = s.program := by unfold writeX; split <;> rfl
@[simp] theorem writeX_draws : (writeX s r v).draws = s.draws := by unfold writeX; split <;> rfl

@[simp] theorem advancePc_xlen : (advancePc s).xlen = s.xlen := rfl
@[simp] theorem advancePc_scounteren : (advancePc s).scounteren = s.scounteren := rfl
@[simp] theorem advancePc_mode : (advancePc s).mode = s.mode := rfl
@[simp] theorem advancePc_virt : (advancePc s).virt = s.virt := rfl
@[simp] theorem advancePc_x : (advancePc s).x = s.x := rfl
@[simp] theorem advancePc_pc : (advancePc s).pc = toXlen s.xlen (s.pc + 4) := rfl
@[simp] theorem advancePc_mcounteren : (advancePc s).mcounteren = s.mcounteren := rfl
@[simp] theorem advancePc_program : (advancePc s).program = s.program := rfl
@[simp] theorem advancePc_draws : (advancePc s).draws = s.draws := rfl

@[simp] theorem csrWrite_xlen : (csrWrite s v).xlen = s.xlen := rfl
@[simp] theorem csrWrite_scounteren : (csrWrite s v).scounteren = scounterenWrite (v.setWidth 32) := rfl
@[simp] theorem csrWrite_mode : (csrWrite s v).mode = s.mode := rfl
@[simp] theorem csrWrite_virt : (csrWrite s v).virt = s.virt := rfl
@[simp] theorem csrWrite_x : (csrWrite s v).x = s.x := rfl
@[simp] theorem csrWrite_pc : (csrWrite s v).pc = s.pc := rfl
@[simp] theorem csrWrite_mcounteren : (csrWrite s v).mcounteren = s.mcounteren := rfl
@[simp] theorem csrWrite_program : (csrWrite s v).program = s.program := rfl
@[simp] theorem csrWrite_draws : (csrWrite s v).draws = s.draws := rfl

@[simp] theorem countDraw_xlen : (countDraw s).xlen = s.xlen := rfl
@[simp] theorem countDraw_scounteren : (countDraw s).scounteren = s.scounteren := rfl
@[simp] theorem countDraw_mode : (countDraw s).mode = s.mode := rfl
@[simp] theorem countDraw_virt : (countDraw s).virt = s.virt := rfl
@[simp] theorem countDraw_x : (countDraw s).x = s.x := rfl
@[simp] theorem countDraw_pc : (countDraw s).pc = s.pc := rfl
@[simp] theorem countDraw_mcounteren : (countDraw s).mcounteren = s.mcounteren := rfl
@[simp] theorem countDraw_program : (countDraw s).program = s.program := rfl
@[simp] theorem countDraw_draws : (countDraw s).draws = s.draws + 1 := rfl

@[simp] theorem placeWord_xlen : (placeWord s w).xlen = s.xlen := rfl
@[simp] theorem placeWord_scounteren : (placeWord s w).scounteren = s.scounteren := rfl
@[simp] theorem placeWord_mode : (placeWord s w).mode = s.mode := rfl
@[simp] theorem placeWord_virt : (placeWord s w).virt = s.virt := rfl
@[simp] theorem placeWord_x : (placeWord s w).x = s.x := rfl
@[simp] theorem placeWord_pc : (placeWord s w).pc = s.pc := rfl
@[simp] theorem placeWord_mcounteren : (placeWord s w).mcounteren = s.mcounteren := rfl
@[simp] theorem placeWord_program :
    (placeWord s w).program = writeBytes s.program s.pc.toNat (bytesOfWord w) := rfl
@[simp] theorem placeWord_draws : (placeWord s w).draws = s.draws := rfl

end

section
variable (xlen : Xlen) (drawn mc : Word32)

@[simp] theorem resetFrom_xlen : (State.resetFrom xlen drawn mc).xlen = xlen := rfl
@[simp] theorem resetFrom_scounteren : (State.resetFrom xlen drawn mc).scounteren = drawn &&& wmask := rfl
@[simp] theorem resetFrom_mode : (State.resetFrom xlen drawn mc).mode = .M := rfl
@[simp] theorem resetFrom_virt : (State.resetFrom xlen drawn mc).virt = false := rfl
@[simp] theorem resetFrom_x : (State.resetFrom xlen drawn mc).x = Vector.replicate 31 0 := rfl
@[simp] theorem resetFrom_pc : (State.resetFrom xlen drawn mc).pc = 0 := rfl
@[simp] theorem resetFrom_mcounteren : (State.resetFrom xlen drawn mc).mcounteren = mc := rfl
@[simp] theorem resetFrom_program : (State.resetFrom xlen drawn mc).program = [] := rfl
@[simp] theorem resetFrom_draws : (State.resetFrom xlen drawn mc).draws = 0 := rfl

end

end Sys2Proof.Machine
end

