-- ==== Sys2Proof/Laws/Ops.lean ====
section
/-! SUPPORT. What the shared operations over registers, `pc` and the register `scounteren` do, said once each. -/

namespace Sys2Proof.Machine

/-! ### XLEN-bit values -/

/-- Cutting a value to XLEN bits takes its remainder. -/
theorem toXlen_toNat (xlen : Xlen) (v : Word) : (toXlen xlen v).toNat = v.toNat % 2 ^ xlen.bits := by
  cases xlen
  · simp [toXlen, Xlen.bits]
    omega
  · simpa [toXlen, Xlen.bits] using (Nat.mod_eq_of_lt v.isLt).symm

/-- A value that fits in 32 bits is not changed by the cut, at either width. -/
theorem toXlen_setWidth (xlen : Xlen) (v : Word32) : toXlen xlen (v.setWidth 64) = v.setWidth 64 := by
  apply BitVec.eq_of_toNat_eq
  rw [toXlen_toNat]
  refine Nat.mod_eq_of_lt ?_
  have small : (v.setWidth 64).toNat < 2 ^ 32 := by
    have := v.isLt
    simp only [BitVec.toNat_setWidth]
    omega
  cases xlen
  · exact small
  · exact (v.setWidth 64).isLt

/-! ### Integer registers -/

/-- `x0` reads 0 (R58). -/
@[simp] theorem readX_zero (s : State) : readX s 0 = 0 := rfl

/-- What a register reads after a register is written: the value cut to XLEN bits in the register written, unless it
is `x0`, and the old value in every other (R58). -/
theorem readX_writeX (s : State) (r q : Reg) (v : Word) :
    readX (writeX s r v) q = if q = r ∧ q ≠ 0 then toXlen s.xlen v else readX s q := by
  unfold readX writeX
  by_cases q0 : q.val = 0
  · have : q = 0 := Fin.ext q0
    simp [this]
  · have qn : q ≠ 0 := fun h => q0 (by simp [h])
    by_cases r0 : r.val = 0
    · have : q ≠ r := fun h => q0 (h ▸ r0)
      simp [q0, r0, this]
    · simp only [q0, r0, if_false, not_false_eq_true, qn, ne_eq, and_true, Vector.getElem_set]
      by_cases qr : q = r
      · simp [qr]
      · have : ¬ r.val - 1 = q.val - 1 := fun h => qr (Fin.ext (by omega))
        simp [qr, this]

@[simp] theorem readX_advancePc (s : State) (r : Reg) : readX (advancePc s) r = readX s r := rfl
@[simp] theorem readX_csrWrite (s : State) (v : Word) (r : Reg) : readX (csrWrite s v) r = readX s r := rfl
@[simp] theorem readX_countDraw (s : State) (r : Reg) : readX (countDraw s) r = readX s r := rfl

/-- Registers are read alike where the register files are. -/
theorem readX_congr {s t : State} (h : t.x = s.x) (r : Reg) : readX t r = readX s r := by
  simp only [readX, h]

/-! ### `scounteren` as a whole -/

/-- A bit that `scounteren` reads is a stored bit under the mask (R16). -/
theorem scounterenRead_getLsbD (v : Word32) (k : Nat) :
    (scounterenRead v).getLsbD k = (v.getLsbD k && wmask.getLsbD k) := BitVec.getLsbD_and

/-- The mask holds exactly the RW fields (R6, R13, R18). -/
theorem wmask_getLsbD (k : CounterIndex) : wmask.getLsbD k.val = decide (fieldType k = .rw) := by
  revert k; decide

/-- The RO fields of every written value are 0 (R15, R18). -/
theorem scounterenWrite_roFields (v : Word32) : scounterenWrite v &&& 0xFFFFF802#32 = 0 := by
  rw [scounterenWrite, wmask, BitVec.and_assoc]
  simp

/-- Reading a written value gives the written value (R16, R17). -/
theorem scounterenRead_scounterenWrite (v : Word32) : scounterenRead (scounterenWrite v) = scounterenWrite v := by
  simp [scounterenRead, scounterenWrite, BitVec.and_assoc]

end Sys2Proof.Machine
end

