-- ==== Sys2Proof/Laws/Csr.lean ====
section
/-! SUPPORT. What the access check answers and what an instruction can do, said once each. -/

namespace Sys2Proof.Machine

/-! ### Which forms read and write (R81) -/

@[simp] theorem readsUnlessX0_eq_false (rd : Reg) : readsUnlessX0 rd = false ↔ rd = 0 := by revert rd; decide
@[simp] theorem writesUnlessX0_eq_false (rs1 : Reg) : writesUnlessX0 rs1 = false ↔ rs1 = 0 := by revert rs1; decide
@[simp] theorem writesUnlessZero_eq_false (uimm : BitVec 5) : writesUnlessZero uimm = false ↔ uimm = 0 := by
  revert uimm; decide

/-! ### The access check -/

@[simp] theorem readOnlyByNumber_scounteren : readOnlyByNumber (Csr.addr .scounteren) = false := by decide
@[simp] theorem lowestLevel_scounteren : lowestLevelByNumber (Csr.addr .scounteren) = Mode.S.level := by decide

@[simp] theorem readOnlyByNumber_counter (k : CounterIndex) : readOnlyByNumber (Csr.addr (.counter k)) = true := by
  revert k; decide

@[simp] theorem readOnlyByNumber_counterH (k : CounterIndex) : readOnlyByNumber (Csr.addr (.counterH k)) = true := by
  revert k; decide

/-- The check refuses every access with virtualisation on (R106). -/
theorem accessCheck_virt {s : State} (h : s.virt = true) (csr : Csr) (writes : Bool) :
    accessCheck s csr writes = .refuse .virtualised := by
  simp [accessCheck, h]

/-- The check on `scounteren`: U-mode raises, S-mode and M-mode pass (R12, R120). -/
theorem accessCheck_scounteren {s : State} (h : s.virt = false) (writes : Bool) :
    accessCheck s .scounteren writes = if s.mode = .U then .raise else .scounteren := by
  simp only [accessCheck, h, lowestLevel_scounteren, Bool.false_eq_true, if_false]
  cases s.mode <;> rfl

/-- The check on a counter: a writing form raises, and so does a counter the mode may not access (R108). -/
theorem accessCheck_counter {s : State} (h : s.virt = false) (k : CounterIndex) (writes : Bool) :
    accessCheck s (.counter k) writes
      = if writes = false ∧ counterAccessible s k = true then .counter else .raise := by
  simp only [accessCheck, h, counterCheck, readOnlyByNumber_counter]
  cases writes <;> cases counterAccessible s k <;> rfl

/-- The check on an upper half with XLEN 32 is the check on the lower half (R107). -/
theorem accessCheck_counterH_rv32 {s : State} (hx : s.xlen = .rv32) (k : CounterIndex) (writes : Bool) :
    accessCheck s (.counterH k) writes = accessCheck s (.counter k) writes := by
  simp only [accessCheck, hx, counterCheck, readOnlyByNumber_counter, readOnlyByNumber_counterH]

/-- The upper halves do not exist with XLEN 64 (R107). -/
theorem accessCheck_counterH_rv64 {s : State} (h : s.virt = false) (hx : s.xlen = .rv64) (k : CounterIndex)
    (writes : Bool) :
    accessCheck s (.counterH k) writes = .refuse (.unknownCsr (Csr.addr (.counterH k))) := by
  simp [accessCheck, h, hx]

/-- A number with no meaning is refused (R75). -/
theorem accessCheck_other {s : State} (h : s.virt = false) (a : BitVec 12) (writes : Bool) :
    accessCheck s (.other a) writes = .refuse (.unknownCsr a) := by
  simp [accessCheck, h]

/-! ### The execution template -/

/-- If an instruction under the template answers a next state, it accessed `scounteren` or read a counter (R80). -/
theorem csrExecute_next {i : Instr} {reads writes : Bool} {new : Word → Word} {s t : State}
    (h : csrExecute i reads writes new s = .next t) :
    (accessCheck s i.csr writes = .scounteren ∧ t = accessScounteren i.rd reads writes new s) ∨
    (accessCheck s i.csr writes = .counter ∧ t = readCounter i.rd s) := by
  unfold csrExecute raiseIllegal at h
  split at h <;> simp_all

/-- If it faults, the check raised, and the fault has the instruction's word (R121). -/
theorem csrExecute_fault {i : Instr} {reads writes : Bool} {new : Word → Word} {s : State} {r : Fault}
    (h : csrExecute i reads writes new s = .fault r) :
    accessCheck s i.csr writes = .raise ∧ r = .illegalInstruction (encode i) := by
  unfold csrExecute raiseIllegal at h
  split at h <;> simp_all

/-- If it is refused, the check refused it, for the same reason. -/
theorem csrExecute_refused {i : Instr} {reads writes : Bool} {new : Word → Word} {s : State} {r : Refusal}
    (h : csrExecute i reads writes new s = .refused r) : accessCheck s i.csr writes = .refuse r := by
  unfold csrExecute raiseIllegal at h
  split at h <;> simp_all

/-! ### Every instruction runs under the template -/

/-- Which forms read the CSR (R81). -/
def readsCsr : Instr → Bool
  | .csrrw rd _ _ | .csrrwi rd _ _ => readsUnlessX0 rd
  | .csrrs _ _ _ | .csrrc _ _ _ | .csrrsi _ _ _ | .csrrci _ _ _ => true

/-- Which forms write the CSR (R81). -/
def writesCsr : Instr → Bool
  | .csrrw _ _ _ | .csrrwi _ _ _ => true
  | .csrrs _ _ rs1 | .csrrc _ _ rs1 => writesUnlessX0 rs1
  | .csrrsi _ _ uimm | .csrrci _ _ uimm => writesUnlessZero uimm

/-- The new CSR value of an instruction, from the old one (R82 to R87). -/
def newValue (s : State) : Instr → Word → Word
  | .csrrw _ _ rs1, _ => srcReg s rs1
  | .csrrs _ _ rs1, old => old ||| srcReg s rs1
  | .csrrc _ _ rs1, old => old &&& ~~~(srcReg s rs1)
  | .csrrwi _ _ uimm, _ => srcImm uimm
  | .csrrsi _ _ uimm, old => old ||| srcImm uimm
  | .csrrci _ _ uimm, old => old &&& ~~~(srcImm uimm)

/-- Each of the six instructions is the template with its own reads, writes and new value (R80). -/
theorem exec_eq_csrExecute (i : Instr) (s : State) :
    exec i s = csrExecute i (readsCsr i) (writesCsr i) (newValue s i) s := by
  cases i <;> rfl

/-! ### What the two kinds of access leave -/

/-- Accessing `scounteren` stores the masked new value in a writing form and leaves the register in the others. -/
@[simp] theorem accessScounteren_scounteren (rd : Reg) (reads writes : Bool) (new : Word → Word) (s : State) :
    (accessScounteren rd reads writes new s).scounteren
      = if writes then scounterenWrite ((new (csrRead s)).setWidth 32) else s.scounteren := by
  cases reads <;> cases writes <;> simp [accessScounteren]

/-- Accessing `scounteren` puts the old value into `rd` in a reading form and changes no other register. -/
theorem accessScounteren_readX (rd : Reg) (reads writes : Bool) (new : Word → Word) (s : State) (q : Reg) :
    readX (accessScounteren rd reads writes new s) q
      = if reads = true ∧ q = rd ∧ q ≠ 0 then csrRead s else readX s q := by
  have old : toXlen s.xlen (csrRead s) = csrRead s := toXlen_setWidth _ _
  cases reads <;> cases writes <;> simp [accessScounteren, readX_writeX, old]

/-- Accessing `scounteren` leaves every other field but `pc`, which moves on. -/
theorem accessScounteren_frame (rd : Reg) (reads writes : Bool) (new : Word → Word) (s : State) :
    let t := accessScounteren rd reads writes new s
    t.xlen = s.xlen ∧ t.mode = s.mode ∧ t.virt = s.virt ∧ t.mcounteren = s.mcounteren ∧
      t.program = s.program ∧ t.draws = s.draws ∧ t.pc = toXlen s.xlen (s.pc + 4) := by
  cases reads <;> cases writes <;> simp [accessScounteren]

/-- A counter read puts the drawn value into `rd` and changes no other register (R104). -/
theorem readCounter_readX (rd : Reg) (s : State) (q : Reg) :
    readX (readCounter rd s) q = if q = rd ∧ q ≠ 0 then toXlen s.xlen (counterValue s) else readX s q := by
  simp [readCounter, readX_writeX]

/-- A counter read leaves every other field but the count of draws and `pc` (R104). -/
theorem readCounter_frame (rd : Reg) (s : State) :
    let t := readCounter rd s
    t.xlen = s.xlen ∧ t.mode = s.mode ∧ t.virt = s.virt ∧ t.mcounteren = s.mcounteren ∧
      t.program = s.program ∧ t.draws = s.draws + 1 ∧ t.scounteren = s.scounteren ∧
      t.pc = toXlen s.xlen (s.pc + 4) := by
  simp [readCounter]

end Sys2Proof.Machine
end

