-- ==== Sys2Proof/Laws/Decode.lean ====
section
/-! SUPPORT. The small lemmas of the decoder and the encoder: registers and CSR numbers, a word and its fields, a word
and its bytes. -/

namespace Sys2Proof

/-- A register's field names the register. -/
@[simp] theorem regOfBits_bitsOfReg (r : Reg) : regOfBits (bitsOfReg r) = r := by
  revert r; decide

/-- A field is the field of the register it names. -/
@[simp] theorem bitsOfReg_regOfBits (b : BitVec 5) : bitsOfReg (regOfBits b) = b := by
  apply BitVec.eq_of_toNat_eq
  simp [bitsOfReg, regOfBits]

/-- A register's field as a number is the register's number. -/
@[simp] theorem bitsOfReg_toNat (r : Reg) : (bitsOfReg r).toNat = r.val := by
  simp [bitsOfReg]

/-- Two fields side by side, as a number. -/
theorem append_toNat {m n : Nat} (a : BitVec m) (b : BitVec n) : (a ++ b).toNat = a.toNat * 2 ^ n + b.toNat := by
  rw [BitVec.toNat_append, ← Nat.shiftLeft_add_eq_or_of_lt b.isLt, Nat.shiftLeft_eq]

/-- The word made of five fields, as a number (R70). -/
theorem encodeFields_toNat (csr : BitVec 12) (src : BitVec 5) (f : BitVec 3) (rd : BitVec 5) :
    (encodeFields csr src f rd).toNat
      = csr.toNat * 2 ^ 20 + src.toNat * 2 ^ 15 + f.toNat * 2 ^ 12 + rd.toNat * 2 ^ 7 + 0x73 := by
  have op : systemOpcode.toNat = 0x73 := rfl
  simp only [encodeFields, append_toNat, op]
  omega

section
variable (csr : BitVec 12) (src : BitVec 5) (f : BitVec 3) (rd : BitVec 5)

/-- A bit of a word made of fields is a bit of the field it lies in (R70). -/
theorem encodeFields_getLsbD (k : Nat) :
    (encodeFields csr src f rd).getLsbD k
      = if k < 7 then systemOpcode.getLsbD k else if k < 12 then rd.getLsbD (k - 7)
        else if k < 15 then f.getLsbD (k - 12) else if k < 20 then src.getLsbD (k - 15)
        else csr.getLsbD (k - 20) := by
  change BitVec.getLsbD (w := 12 + 5 + 3 + 5 + 7) (csr ++ src ++ f ++ rd ++ systemOpcode) k = _
  simp only [BitVec.getLsbD_append]
  split_ifs <;> first | rfl | omega

/-- The opcode field of a word made of fields. -/
@[simp] theorem encodeFields_opcode : (encodeFields csr src f rd).extractLsb' 0 7 = systemOpcode := by
  apply BitVec.eq_of_toNat_eq
  have op : systemOpcode.toNat = 0x73 := rfl
  simp only [BitVec.extractLsb'_toNat, encodeFields_toNat, Nat.shiftRight_eq_div_pow, op]
  omega

/-- The destination field of a word made of fields. -/
@[simp] theorem encodeFields_rd : (encodeFields csr src f rd).extractLsb' 7 5 = rd := by
  apply BitVec.eq_of_toNat_eq
  have := rd.isLt
  simp only [BitVec.extractLsb'_toNat, encodeFields_toNat, Nat.shiftRight_eq_div_pow]
  omega

/-- The `funct3` field of a word made of fields. -/
@[simp] theorem encodeFields_funct3 : (encodeFields csr src f rd).extractLsb' 12 3 = f := by
  apply BitVec.eq_of_toNat_eq
  have := f.isLt
  have := rd.isLt
  simp only [BitVec.extractLsb'_toNat, encodeFields_toNat, Nat.shiftRight_eq_div_pow]
  omega

/-- The source or immediate field of a word made of fields. -/
@[simp] theorem encodeFields_src : (encodeFields csr src f rd).extractLsb' 15 5 = src := by
  apply BitVec.eq_of_toNat_eq
  have := src.isLt
  have := f.isLt
  have := rd.isLt
  simp only [BitVec.extractLsb'_toNat, encodeFields_toNat, Nat.shiftRight_eq_div_pow]
  omega

/-- The CSR field of a word made of fields. -/
@[simp] theorem encodeFields_csr : (encodeFields csr src f rd).extractLsb' 20 12 = csr := by
  apply BitVec.eq_of_toNat_eq
  have := csr.isLt
  have := src.isLt
  have := f.isLt
  have := rd.isLt
  simp only [BitVec.extractLsb'_toNat, encodeFields_toNat, Nat.shiftRight_eq_div_pow]
  omega

end

/-- A word is made of its five fields when its opcode is `0x73`. -/
theorem encodeFields_of_fields {w : Word32} (h : w.extractLsb' 0 7 = systemOpcode) :
    encodeFields (w.extractLsb' 20 12) (w.extractLsb' 15 5) (w.extractLsb' 12 3) (w.extractLsb' 7 5) = w := by
  apply BitVec.eq_of_toNat_eq
  have bound := w.isLt
  have op := congrArg BitVec.toNat h
  have value : systemOpcode.toNat = 0x73 := rfl
  simp only [BitVec.extractLsb'_toNat, Nat.shiftRight_eq_div_pow, value] at op
  simp only [encodeFields_toNat, BitVec.extractLsb'_toNat, Nat.shiftRight_eq_div_pow]
  omega

/-- The number of the CSR a number names is the number (R75). -/
@[simp] theorem Csr.addr_ofAddr (a : BitVec 12) : (Csr.ofAddr a).addr = a := by
  have join : a.extractLsb' 5 7 ++ a.extractLsb' 0 5 = a := by
    apply BitVec.eq_of_toNat_eq
    have := a.isLt
    simp only [append_toNat, BitVec.extractLsb'_toNat, Nat.shiftRight_eq_div_pow]
    omega
  unfold Csr.ofAddr
  split_ifs with h1 h2 h3
  · exact h1.symm
  · simpa [Csr.addr, h2] using join
  · simpa [Csr.addr, h3] using join
  · rfl

/-- A word's bytes in memory order make the word (R63). -/
theorem wordOfBytes_bytesOfWord (w : Word32) :
    wordOfBytes (w.extractLsb' 0 8) (w.extractLsb' 8 8) (w.extractLsb' 16 8) (w.extractLsb' 24 8) = w := by
  apply BitVec.eq_of_toNat_eq
  have := w.isLt
  simp only [wordOfBytes, append_toNat, BitVec.extractLsb'_toNat, Nat.shiftRight_eq_div_pow]
  omega

/-- Decoding a word's bytes is decoding the word; the bytes that follow are left. -/
theorem decode_bytesOfWord (w : Word32) (rest : List Byte) :
    decode (bytesOfWord w ++ rest) = (decodeWord w).map fun i => (i, rest) := by
  simp [bytesOfWord, decode, wordOfBytes_bytesOfWord]

end Sys2Proof
end

