-- ==== Sys2Proof/Laws/Exec.lean ====
section
/-! SUPPORT. What each instruction answers on each kind of CSR, in the words the claims are stated in. -/

namespace Sys2Proof.Machine

/-- With virtualisation on, every instruction is refused (R106). -/
theorem exec_virt {s : State} (h : s.virt = true) (i : Instr) : exec i s = .refused .virtualised := by
  rw [exec_eq_csrExecute, csrExecute, accessCheck_virt h]

/-- In S-mode and M-mode every instruction on `scounteren` accesses it (R12, R120). -/
theorem exec_scounteren {s : State} {i : Instr} (named : i.csr = .scounteren) (h : MayAccessScounteren s) :
    exec i s = .next (accessScounteren i.rd (readsCsr i) (writesCsr i) (newValue s i) s) := by
  rw [exec_eq_csrExecute, csrExecute, named, accessCheck_scounteren h.1, if_neg h.2]

/-- In U-mode every instruction on `scounteren` raises (R12, R120). -/
theorem raises_scounteren {s : State} {i : Instr} (named : i.csr = .scounteren) (hv : s.virt = false)
    (hm : s.mode = .U) : Raises i s := by
  rw [Raises, exec_eq_csrExecute, csrExecute, named, accessCheck_scounteren hv, if_pos hm]
  rfl

/-- The check on a counter in either half (R107, R108). -/
theorem accessCheck_namesCounter {s : State} {csr : Csr} {k : CounterIndex} (hv : s.virt = false)
    (named : NamesCounter s csr k) (writes : Bool) :
    accessCheck s csr writes = if writes = false ∧ counterAccessible s k = true then .counter else .raise := by
  obtain ⟨index, present⟩ := named
  cases csr with
  | scounteren => simp [counterIndexOf] at index
  | counter j =>
    obtain rfl : j = k := by simpa [counterIndexOf] using index
    exact accessCheck_counter hv _ _
  | counterH j =>
    obtain rfl : j = k := by simpa [counterIndexOf] using index
    rw [accessCheck_counterH_rv32 (by simpa [csrExists] using present), accessCheck_counter hv]
  | other a => simp [counterIndexOf] at index

/-- An instruction that names a counter reads it or raises (R108). -/
theorem exec_namesCounter {s : State} {i : Instr} {k : CounterIndex} (hv : s.virt = false)
    (named : NamesCounter s i.csr k) :
    exec i s = if writesCsr i = false ∧ counterAccessible s k = true then .next (readCounter i.rd s)
      else .fault (.illegalInstruction (encode i)) := by
  rw [exec_eq_csrExecute, csrExecute, accessCheck_namesCounter hv named]
  split_ifs <;> rfl

/-- An instruction on a CSR with no meaning at this XLEN is refused (R75). -/
theorem exec_meaningless {s : State} {i : Instr} (hv : s.virt = false) (absent : csrExists s.xlen i.csr = false) :
    exec i s = .refused (.unknownCsr i.csr.addr) := by
  rw [exec_eq_csrExecute, csrExecute]
  cases named : i.csr with
  | scounteren => simp [named, csrExists] at absent
  | counter k => simp [named, csrExists] at absent
  | counterH k =>
    have : s.xlen = .rv64 := by cases hx : s.xlen <;> simp_all [csrExists]
    rw [accessCheck_counterH_rv64 hv this]
  | other a => rw [accessCheck_other hv]; rfl

/-- A CSR operand names `scounteren`, or a counter, or nothing at this XLEN (R75). -/
theorem csr_cases (s : State) (csr : Csr) :
    csr = .scounteren ∨ (∃ k, NamesCounter s csr k) ∨ csrExists s.xlen csr = false := by
  cases csr with
  | scounteren => exact .inl rfl
  | counter k => exact .inr (.inl ⟨k, rfl, rfl⟩)
  | counterH k =>
    cases hx : s.xlen with
    | rv32 => exact .inr (.inl ⟨k, rfl, by simp [csrExists, hx]⟩)
    | rv64 => exact .inr (.inr (by simp [csrExists]))
  | other a => exact .inr (.inr rfl)

/-- The pure reads are the forms that do not write the CSR (R81). -/
theorem mem_pureReads_iff (i : Instr) : i ∈ pureReads i.rd i.csr ↔ writesCsr i = false := by
  cases i <;> simp [pureReads, Instr.rd, Instr.csr, writesCsr]

/-- What a pure read of a CSR is. -/
theorem pureReads_spec {rd : Reg} {csr : Csr} {i : Instr} (h : i ∈ pureReads rd csr) :
    i.csr = csr ∧ i.rd = rd ∧ writesCsr i = false := by
  simp only [pureReads, List.mem_cons, List.not_mem_nil, or_false] at h
  rcases h with rfl | rfl | rfl | rfl <;> exact ⟨rfl, rfl, rfl⟩

/-- The check of the machine and the table of R109 agree. -/
theorem counterAccessible_iff (s : State) (k : CounterIndex) :
    counterAccessible s k = true ↔ MayReadCounter s k := by
  unfold counterAccessible MayReadCounter UserEnabled
  cases s.mode with
  | M => simp
  | S => exact Iff.rfl
  | U =>
    simp only [uEnabled, sEnabled, mEnabled, scounterenRead, wmask, BitVec.getLsbD_and, Bool.and_eq_true]
    tauto

end Sys2Proof.Machine
end

