-- ==== Sys2Proof/Laws/Memory.lean ====
section
/-! SUPPORT. The laws of the program text: a byte read after it is placed, the bytes beside it, and the canonical
form, which every operation keeps. -/

namespace Sys2Proof.Machine

/-- A byte placed at an address is what the address reads. -/
@[simp] theorem readByte_writeByte_same (m : List Host.Cell) (a : Nat) (v : Byte) :
    readByte (writeByte m a v) a = some v := by
  induction m with
  | nil => simp [writeByte, readByte]
  | cons c m ih =>
    unfold writeByte
    split_ifs with below here
    · simp [readByte]
    · simp [readByte]
    · simp [readByte, Ne.symm here, ih]

/-- A byte placed at an address leaves every other address alone. -/
theorem readByte_writeByte_other (m : List Host.Cell) {a b : Nat} (v : Byte) (h : b ≠ a) :
    readByte (writeByte m a v) b = readByte m b := by
  induction m with
  | nil => simp [writeByte, readByte, Ne.symm h]
  | cons c m ih =>
    unfold writeByte
    split_ifs with below here
    · simp [readByte, Ne.symm h]
    · simp [readByte, ← here, Ne.symm h]
    · simp [readByte, ih]

/-- Which entries a text has after a byte is placed: the new one, and old ones. -/
theorem mem_writeByte {m : List Host.Cell} {a : Nat} {v : Byte} {c : Host.Cell} (h : c ∈ writeByte m a v) :
    c = (a, v) ∨ c ∈ m := by
  induction m with
  | nil => simpa [writeByte] using h
  | cons d m ih =>
    unfold writeByte at h
    split_ifs at h with below here
    · simpa using h
    · rcases List.mem_cons.1 h with h | h
      · exact .inl h
      · exact .inr (List.mem_cons_of_mem _ h)
    · rcases List.mem_cons.1 h with h | h
      · exact .inr (h ▸ List.mem_cons_self)
      · exact (ih h).imp id (List.mem_cons_of_mem _)

/-- Placing a byte keeps the canonical form. -/
theorem writeByte_wf {m : List Host.Cell} (a : Nat) (v : Byte) (h : Memory.wf m) : Memory.wf (writeByte m a v) := by
  induction m with
  | nil => simp [writeByte]
  | cons c m ih =>
    obtain ⟨hc, hm⟩ := List.pairwise_cons.1 h
    unfold writeByte
    split_ifs with below here
    · refine List.pairwise_cons.2 ⟨fun d hd => ?_, h⟩
      rcases List.mem_cons.1 hd with rfl | hd
      · exact below
      · exact below.trans (hc d hd)
    · exact List.pairwise_cons.2 ⟨fun d hd => here ▸ hc d hd, hm⟩
    · refine List.pairwise_cons.2 ⟨fun d hd => ?_, ih hm⟩
      rcases mem_writeByte hd with rfl | hd
      · dsimp only; omega
      · exact hc d hd

/-- Placing bytes keeps the canonical form. -/
theorem writeBytes_wf {m : List Host.Cell} (a : Nat) (vs : List Byte) (h : Memory.wf m) :
    Memory.wf (writeBytes m a vs) := by
  induction vs generalizing m a with
  | nil => exact h
  | cons v vs ih => exact ih _ (writeByte_wf a v h)

/-- Placing an instruction word keeps the canonical form. -/
theorem placeWord_wf (s : State) (w : Word32) (h : Memory.wf s.program) : Memory.wf (placeWord s w).program :=
  writeBytes_wf _ _ h

/-- The program text after reset has the canonical form. -/
theorem reset_program_wf : Memory.wf State.reset.program := List.Pairwise.nil

/-- Placing bytes leaves every address below them alone. -/
theorem readByte_writeBytes_below (m : List Host.Cell) {a b : Nat} (vs : List Byte) (h : b < a) :
    readByte (writeBytes m a vs) b = readByte m b := by
  induction vs generalizing m a with
  | nil => rfl
  | cons v vs ih =>
    rw [writeBytes, ih _ (by omega), readByte_writeByte_other _ _ (by omega)]

/-- Each byte placed is what its address reads. -/
theorem readByte_writeBytes_at (m : List Host.Cell) (a : Nat) (vs : List Byte) (k : Nat) (h : k < vs.length) :
    readByte (writeBytes m a vs) (a + k) = some vs[k] := by
  induction vs generalizing m a k with
  | nil => simp at h
  | cons v vs ih =>
    cases k with
    | zero => simp [writeBytes, readByte_writeBytes_below]
    | succ k =>
      have := ih (writeByte m a v) (a + 1) k (by simpa using h)
      rwa [show a + 1 + k = a + (k + 1) by omega] at this

/-- The bytes of a placed instruction word are what a fetch at its address finds. -/
theorem fetchBytes_writeBytes (m : List Host.Cell) (a : Nat) (w : Word32) :
    fetchBytes (writeBytes m a (bytesOfWord w)) a = some (bytesOfWord w) := by
  have placed := readByte_writeBytes_at m a (bytesOfWord w)
  have h0 := placed 0 (by simp [bytesOfWord])
  have h1 := placed 1 (by simp [bytesOfWord])
  have h2 := placed 2 (by simp [bytesOfWord])
  have h3 := placed 3 (by simp [bytesOfWord])
  rw [Nat.add_zero] at h0
  rw [fetchBytes, h0, h1, h2, h3]
  rfl

/-- The bytes found by a fetch are those at the four addresses. -/
theorem fetchBytes_eq_some {m : List Host.Cell} {a : Nat} {bs : List Byte} :
    fetchBytes m a = some bs ↔ ∃ b0 b1 b2 b3, readByte m a = some b0 ∧ readByte m (a + 1) = some b1 ∧
      readByte m (a + 2) = some b2 ∧ readByte m (a + 3) = some b3 ∧ bs = [b0, b1, b2, b3] := by
  unfold fetchBytes
  constructor
  · intro h
    split at h
    · simp only [Option.some.injEq] at h
      exact ⟨_, _, _, _, ‹_›, ‹_›, ‹_›, ‹_›, h.symm⟩
    · cases h
  · rintro ⟨b0, b1, b2, b3, h0, h1, h2, h3, rfl⟩
    simp [h0, h1, h2, h3]

end Sys2Proof.Machine
end

