-- ==== Sys2Proof/Laws/PerInstr.lean ====
section
/-! SUPPORT. The statements made instruction by instruction, with one lemma for each. -/

namespace Sys2Proof.Laws

/-- The places of the operands in an instruction's word: the CSR number in bits 31:20, the destination in bits 11:7,
and the opcode in bits 6:0 (R70). -/
def Fields.Statement (i : Instr) : Prop :=
  (encode i).extractLsb' 20 12 = i.csr.addr ∧ (encode i).extractLsb' 7 5 = bitsOfReg i.rd ∧
    (encode i).extractLsb' 0 7 = systemOpcode

variable (rd rs1 : Reg) (csr : Csr) (uimm : BitVec 5)

theorem Fields.csrrw : Fields.Statement (.csrrw rd csr rs1) :=
  ⟨encodeFields_csr .., encodeFields_rd .., encodeFields_opcode ..⟩

theorem Fields.csrrs : Fields.Statement (.csrrs rd csr rs1) :=
  ⟨encodeFields_csr .., encodeFields_rd .., encodeFields_opcode ..⟩

theorem Fields.csrrc : Fields.Statement (.csrrc rd csr rs1) :=
  ⟨encodeFields_csr .., encodeFields_rd .., encodeFields_opcode ..⟩

theorem Fields.csrrwi : Fields.Statement (.csrrwi rd csr uimm) :=
  ⟨encodeFields_csr .., encodeFields_rd .., encodeFields_opcode ..⟩

theorem Fields.csrrsi : Fields.Statement (.csrrsi rd csr uimm) :=
  ⟨encodeFields_csr .., encodeFields_rd .., encodeFields_opcode ..⟩

theorem Fields.csrrci : Fields.Statement (.csrrci rd csr uimm) :=
  ⟨encodeFields_csr .., encodeFields_rd .., encodeFields_opcode ..⟩

end Sys2Proof.Laws
end

