-- ==== Sys2Proof/Laws/Step.lean ====
section
/-! SUPPORT. What a step can do: it fetches an instruction and runs it, or is refused. -/

namespace Sys2Proof.Machine

/-- A step whose fetch finds an instruction runs it. -/
theorem step_of_fetch {s : State} {i : Instr} (h : fetchInstr s = .ok i) : step s = exec i s := by
  simp [step, h]

/-- A step whose fetch finds none is refused, for the fetch's reason. -/
theorem step_of_no_fetch {s : State} {r : Refusal} (h : fetchInstr s = .error r) : step s = .refused r := by
  simp [step, h]

/-- If a step answers a next state, it ran a fetched instruction. -/
theorem step_next {s t : State} (h : step s = .next t) : ∃ i, fetchInstr s = .ok i ∧ exec i s = .next t := by
  unfold step at h
  split at h
  · exact ⟨_, ‹_›, h⟩
  · cases h

/-- If a step faults, it ran a fetched instruction, which raised. -/
theorem step_fault {s : State} {r : Fault} (h : step s = .fault r) :
    ∃ i, fetchInstr s = .ok i ∧ exec i s = .fault r := by
  unfold step at h
  split at h
  · exact ⟨_, ‹_›, h⟩
  · cases h

end Sys2Proof.Machine
end

