-- ==== Sys2Proof/Tests/Slice0.lean ====
section
/-! SUPPORT. Tests of the model against the vectors of 95_test_vectors.md, the ill-formed terms the check refuses, and
for each statement with hypotheses a concrete state that meets them. -/

namespace Sys2Proof.Tests

open Sys2Proof Sys2Proof.Machine

/-! ### Building and observing small states -/

/-- A state at `pc = 0x1000` with virtualisation off, in the mode and with the registers given. -/
def small (xlen : Xlen) (mode : Mode) (sc mc : Word32) (a0 a1 : Word) : State :=
  writeX (writeX { State.resetFrom xlen sc mc with mode := mode, pc := 0x1000 } 10 a0) 11 a1

/-- The step that runs a word placed at `pc`. -/
def runWord (w : Nat) (s : State) : Result := step (s.withFetchWord 32 w)

/-- Does the outcome hold a next state of which `p` is true? -/
def nextIs (r : Result) (p : State → Bool) : Bool :=
  match r with
  | .next t => p t
  | .fault _ | .refused _ => false

/-- Is the outcome the fault with this instruction word? -/
def faultIs (r : Result) (w : Word32) : Bool :=
  match r with
  | .fault f => f == .illegalInstruction w
  | .next _ | .refused _ => false

/-- Is the outcome this refusal? -/
def refusalIs (r : Result) (why : Refusal) : Bool :=
  match r with
  | .refused x => x == why
  | .next _ | .fault _ => false

theorem exists_of_nextIs {r : Result} {p : State → Bool} (h : nextIs r p = true) :
    ∃ t, r = .next t ∧ p t = true := by
  cases r with
  | next t => exact ⟨t, rfl, h⟩
  | fault _ => cases h
  | refused _ => cases h

theorem eq_of_faultIs {r : Result} {w : Word32} (h : faultIs r w = true) : r = .fault (.illegalInstruction w) := by
  cases r with
  | fault f => exact congrArg _ (by simpa [faultIs] using h)
  | next _ => cases h
  | refused _ => cases h

/-! ### The well-formedness check: an ill-formed term for each clause -/

theorem test_illFormed_scounteren_as_other : Instr.wellFormed (.csrrw 1 (.other 0x106#12) 2) = false := by decide
theorem test_illFormed_counter_as_other : Instr.wellFormed (.csrrs 1 (.other 0xC1F#12) 0) = false := by decide
theorem test_illFormed_counterH_as_other : Instr.wellFormed (.csrrci 1 (.other 0xC80#12) 0) = false := by decide
theorem test_wellFormed_mcounteren : Instr.wellFormed (.csrrs 10 (.other 0x306#12) 0) = true := by decide

/-! ### Decoding: words written out bit by bit (R70, R71), csr / rs1 or uimm / funct3 / rd / opcode -/

theorem test_decode_csrrw : -- V80
    decodeWord 0b00010000011001010001000001110011#32 = .ok (.csrrw 0 .scounteren 10) := by decide
theorem test_decode_csrrs : -- V81
    decodeWord 0b00010000011000000010010101110011#32 = .ok (.csrrs 10 .scounteren 0) := by decide
theorem test_decode_csrrc : -- V82
    decodeWord 0b00010000011001011011010101110011#32 = .ok (.csrrc 10 .scounteren 11) := by decide
theorem test_decode_csrrwi : -- V83
    decodeWord 0b00010000011011111101000001110011#32 = .ok (.csrrwi 0 .scounteren 31#5) := by decide
theorem test_decode_csrrsi : -- V84
    decodeWord 0b00010000011000101110000001110011#32 = .ok (.csrrsi 0 .scounteren 5#5) := by decide
theorem test_decode_csrrci : -- V85
    decodeWord 0b00010000011000101111000001110011#32 = .ok (.csrrci 0 .scounteren 5#5) := by decide
theorem test_decode_rdcycle : -- V86
    decodeWord 0b11000000000000000010010101110011#32 = .ok (.csrrs 10 (.counter 0) 0) := by decide
theorem test_decode_bytes_little_endian : -- V80 as bytes (R63)
    decode [0x73#8, 0x10#8, 0x65#8, 0x10#8, 0xAA#8] = .ok (.csrrw 0 .scounteren 10, [0xAA#8]) := by decide
theorem test_decode_truncated : decode [0x73#8, 0x10#8, 0x65#8] = .error .truncated := by decide
theorem test_decode_table_row : decodeTableWord 32 0x10659573 = some (.csrrw 10 .scounteren 11) := by decide

/-! ### One step of each instruction -/

/-- V20. -/
theorem test_csrrw_masks : nextIs (runWord 0x10659573 (small .rv32 .S 0x005 0 0 0xFFFFFFFF))
    (fun t => readX t 10 == 0x5 && t.scounteren == 0x7FD && t.pc == 0x1004) = true := by decide

/-- V74: a counter is read-only, whatever is enabled. -/
theorem test_csrrw_counter_raises :
    faultIs (runWord 0xC0051073 (small .rv64 .U 0x001 0x001 7 0)) 0xC0051073 = true := by decide

/-- V26: bit 1 of the source is TM and sets nothing. -/
theorem test_csrrs_skips_tm : nextIs (runWord 0x1065A573 (small .rv32 .S 0x01D 0 0 0x702))
    (fun t => readX t 10 == 0x1D && t.scounteren == 0x71D && t.pc == 0x1004) = true := by decide

/-- V63: TM is hardwired, so `rdtime` raises in U-mode with everything set. -/
theorem test_csrrs_rdtime_raises :
    faultIs (runWord 0xC01025F3 (small .rv32 .U 0x7FD 0xFFFFFFFF 0 0)) 0xC01025F3 = true := by decide

/-- V31. -/
theorem test_csrrc_clears : nextIs (runWord 0x1065B573 (small .rv64 .S 0x7FD 0 0 0x3F8))
    (fun t => readX t 10 == 0x7FD && t.scounteren == 0x405) = true := by decide

/-- V32. -/
theorem test_csrrc_clears_all : nextIs (runWord 0x1065B573 (small .rv32 .M 0x7FD 0 0 0xFFFFFFFF))
    (fun t => readX t 10 == 0x7FD && t.scounteren == 0) = true := by decide

/-- V34: the write replaces the whole register. -/
theorem test_csrrwi_replaces : nextIs (runWord 0x106FD573 (small .rv32 .S 0x7F8 0 0 0))
    (fun t => readX t 10 == 0x7F8 && t.scounteren == 0x01D) = true := by decide

/-- V35: `uimm = 0` still writes. -/
theorem test_csrrwi_zero_writes : nextIs (runWord 0x10605073 (small .rv32 .S 0x7FD 0 9 0))
    (fun t => readX t 10 == 9 && readX t 0 == 0 && t.scounteren == 0) = true := by decide

/-- V39. -/
theorem test_csrrsi_sets : nextIs (runWord 0x106FE573 (small .rv32 .S 0x700 0 0 0))
    (fun t => readX t 10 == 0x700 && t.scounteren == 0x71D) = true := by decide

/-- V52: a form that does not write needs S-mode as well. -/
theorem test_csrrsi_user_raises :
    faultIs (runWord 0x10606573 (small .rv32 .U 0x005 0 0 0)) 0x10606573 = true := by decide

/-- V42. -/
theorem test_csrrci_clears : nextIs (runWord 0x106FF573 (small .rv32 .S 0x7FD 0 0 0))
    (fun t => readX t 10 == 0x7FD && t.scounteren == 0x7E0) = true := by decide

/-- V41: with `uimm = 0` nothing is written. -/
theorem test_csrrci_zero_reads : nextIs (runWord 0x10607573 (small .rv32 .S 0x7FD 0 0 0))
    (fun t => readX t 10 == 0x7FD && t.scounteren == 0x7FD && t.draws == 0) = true := by decide

/-! ### The host's two questions, from reset -/

theorem test_reset_runs_csrrw : nextIs (step (State.reset.withFetchWord 32 0x10659573)) (fun _ => true) = true := by
  decide
theorem test_reset_without_program : refusalIs (step State.reset) (.outsideProgram 0) = true := by decide

/-! ### Witnesses: for each statement with hypotheses, a state and operands that meet them -/

theorem test_witness_DecodeOfEncodeIsTheInstruction :
    Instr.wellFormed (.csrrc 31 (.counterH 31) 31) = true := by decide

theorem test_witness_EncodeOfDecodeIsTheWord : decodeWord 0xC9F02773#32 = .ok (.csrrs 14 (.counterH 31) 0) := by decide

/-- The refusal's two clauses and the numbers where they meet the accepted words (V87 to V89). -/
theorem test_witness_DecodeRefusesExactlyTheOtherWords :
    decodeWord 0x10651033#32 = .error (.notSystemOpcode 0x10651033#32) ∧
    decodeWord 0x10600073#32 = .error (.notCsrFunct3 0x10600073#32) ∧
    decodeWord 0x10604073#32 = .error (.notCsrFunct3 0x10604073#32) ∧
    decodeWord 0x00001073#32 = .ok (.csrrw 0 (.other 0) 0) := by decide

/-- The edges of the number ranges. -/
theorem test_witness_CsrNumbersNameTheirRegisters :
    Csr.ofAddr 0x106#12 = .scounteren ∧ Csr.ofAddr 0x105#12 = .other 0x105#12 ∧
    Csr.ofAddr 0xBFF#12 = .other 0xBFF#12 ∧ Csr.ofAddr 0xC00#12 = .counter 0 ∧ Csr.ofAddr 0xC1F#12 = .counter 31 ∧
    Csr.ofAddr 0xC20#12 = .other 0xC20#12 ∧ Csr.ofAddr 0xC7F#12 = .other 0xC7F#12 ∧
    Csr.ofAddr 0xC80#12 = .counterH 0 ∧ Csr.ofAddr 0xC9F#12 = .counterH 31 ∧
    Csr.ofAddr 0xCA0#12 = .other 0xCA0#12 := by decide

/-- S-mode, `csrr a0, scounteren` at `0x1000`. -/
def readingState : State := (small .rv32 .S 0x005 0 0 0).withFetchWord 32 0x10602573

/-- S-mode, `csrw scounteren, a0` at `0x1000` with `a0 = 0x7FD`. -/
def writingState : State := (small .rv32 .S 0x005 0 0x7FD 0).withFetchWord 32 0x10651073

/-- U-mode, `csrr a0, scounteren` at `0x1000`. -/
def faultingState : State := (small .rv32 .U 0x005 0 0 0).withFetchWord 32 0x10602573

theorem test_witness_StepRunsTheDecodedInstruction :
    readingState.pc.toNat % 4 = 0 ∧
    readByte readingState.program readingState.pc.toNat = some 0x73#8 ∧
    readByte readingState.program (readingState.pc.toNat + 1) = some 0x25#8 ∧
    readByte readingState.program (readingState.pc.toNat + 2) = some 0x60#8 ∧
    readByte readingState.program (readingState.pc.toNat + 3) = some 0x10#8 ∧
    decode [0x73#8, 0x25#8, 0x60#8, 0x10#8] = .ok (.csrrs 10 .scounteren 0, []) := by decide

/-- The first byte missing, the last byte missing, and a misaligned `pc`. -/
theorem test_witness_StepOutsideTheProgramIsRefused :
    ((small .rv32 .S 0 0 0 0).pc.toNat % 4 = 0 ∧ readByte (small .rv32 .S 0 0 0 0).program (0x1000 + 0) = none) ∧
    ({ readingState with program := readingState.program.take 3 }.pc.toNat % 4 = 0 ∧
      readByte (readingState.program.take 3) (0x1000 + 3) = none) ∧
    { readingState with pc := 0x1002 }.pc.toNat % 4 ≠ 0 := by decide

theorem test_witness_PlacedInstructionRunsNext :
    (small .rv32 .S 0 0 0 0).pc.toNat % 4 = 0 ∧ Instr.wellFormed (.csrrw 10 .scounteren 11) = true := by decide

theorem test_witness_VirtualisedStepsAreRefused :
    { readingState with virt := true }.virt = true ∧
    (fetchInstr { readingState with virt := true }).toOption = some (.csrrs 10 .scounteren 0) := by decide

theorem test_witness_StepChangesOnlyPcDestinationAndCsr : ∃ t, step readingState = .next t := by
  obtain ⟨t, h, -⟩ := exists_of_nextIs (r := step readingState) (p := fun _ => true) (by decide)
  exact ⟨t, h⟩

/-- For the six result statements: a state of each of the two clauses, S-mode and M-mode, and U-mode. -/
theorem test_witness_MayAccessScounteren :
    MayAccessScounteren (small .rv32 .S 0x7FD 0 0 0) ∧ MayAccessScounteren (small .rv64 .M 0x7FD 0 0 0) ∧
    (small .rv32 .U 0x7FD 0 0 0).virt = false ∧ (small .rv32 .U 0x7FD 0 0 0).mode = .U := by
  unfold MayAccessScounteren
  decide

/-- For the statements on a swap: such a state with a register that is not `x0`. -/
theorem test_witness_SourceIsReadBeforeDestinationIsWritten :
    MayAccessScounteren (small .rv32 .S 0x005 0 0x700 0) ∧ (10 : Reg) ≠ 0 := by
  unfold MayAccessScounteren
  decide

theorem test_witness_SwappingTwiceKeepsTheWritableBits :
    MayAccessScounteren (small .rv32 .M 0x405 0 0xDEADBEEF 0) ∧ (10 : Reg) ≠ 0 := by
  unfold MayAccessScounteren
  decide

/-- A quiet run of one step from `readingState`. -/
theorem test_witness_WritableBitsAreRetainedUntilTheNextWrite :
    MayAccessScounteren readingState ∧ (10 : Reg) ≠ 0 ∧ fieldType 0 = .rw ∧ fieldType 10 = .rw ∧
    ∃ u, QuietReaches readingState u ∧ u.pc = 0x1004 := by
  refine ⟨by unfold MayAccessScounteren; decide, by decide, by decide, by decide, ?_⟩
  obtain ⟨t, h, p⟩ := exists_of_nextIs (r := step readingState) (p := fun t => t.pc == 0x1004) (by decide)
  exact ⟨t, .head (i := .csrrs 10 .scounteren 0) rfl (by decide) h (.refl t), by simpa using p⟩

theorem test_witness_ReadOnlyBitsIgnoreWritesAndReadZero :
    MayAccessScounteren writingState ∧ Instr.csr (.csrrw 0 .scounteren 10) = .scounteren ∧
    writesScounteren (.csrrw 0 .scounteren 10) = true ∧
    fieldType 1 = .ro ∧ fieldType 11 = .ro ∧ fieldType 31 = .ro := by
  unfold MayAccessScounteren
  decide

theorem test_witness_ReadOnlyFieldsStayZero :
    RoFieldsZero writingState.scounteren ∧ ∃ t, Reaches writingState t ∧ t.scounteren = 0x7FD := by
  refine ⟨by unfold RoFieldsZero; decide, ?_⟩
  obtain ⟨t, h, p⟩ := exists_of_nextIs (r := step writingState) (p := fun t => t.scounteren == 0x7FD) (by decide)
  exact ⟨t, .head h (.refl t), by simpa using p⟩

theorem test_witness_ScounterenChangesOnlyByItsWrites :
    ∃ t, step writingState = .next t ∧ t.scounteren ≠ writingState.scounteren := by
  obtain ⟨t, h, p⟩ := exists_of_nextIs (r := step writingState)
    (p := fun t => t.scounteren != writingState.scounteren) (by decide)
  exact ⟨t, h, by simpa using p⟩

/-- A counter named by its lower half at either width, and by its upper half with XLEN 32. -/
theorem test_witness_WritingFormsRaiseOnCounters :
    (small .rv32 .M 0 0 0 0).virt = false ∧ (small .rv32 .M 0 0 0 0).mode = .M ∧
    NamesCounter (small .rv32 .M 0 0 0 0) (.counterH 31) 31 ∧ NamesCounter (small .rv64 .U 0 0 0 0) (.counter 0) 0 ∧
    (11 : Reg) ≠ 0 ∧ (1#5) ≠ 0 ∧ Completes (.csrrs 10 (.counterH 31) 0) (small .rv32 .M 0 0 0 0) := by
  refine ⟨by decide, by decide, ⟨by decide, by decide⟩, ⟨by decide, by decide⟩, by decide, by decide, ?_⟩
  obtain ⟨t, h, -⟩ := exists_of_nextIs (r := exec (.csrrs 10 (.counterH 31) 0) (small .rv32 .M 0 0 0 0))
    (p := fun _ => true) (by decide)
  exact ⟨t, h⟩

/-- One state for each mode in which a counter may be read (V73, V72, V67). -/
theorem test_witness_PermittedCounterReadIsADraw :
    (NamesCounter (small .rv32 .M 0 0 0 0) (.counter 31) 31 ∧ MayReadCounter (small .rv32 .M 0 0 0 0) 31) ∧
    (NamesCounter (small .rv64 .S 0 2 0 0) (.counter 1) 1 ∧ MayReadCounter (small .rv64 .S 0 2 0 0) 1) ∧
    (NamesCounter (small .rv32 .U 0x400 0x400 0 0) (.counterH 10) 10 ∧
      MayReadCounter (small .rv32 .U 0x400 0x400 0 0) 10) ∧
    Instr.csrrci 10 (.counter 1) 0 ∈ pureReads 10 (.counter 1) := by
  refine ⟨⟨⟨by decide, by decide⟩, ?_⟩, ⟨⟨by decide, by decide⟩, ?_⟩, ⟨⟨by decide, by decide⟩, ?_⟩, by decide⟩
  · trivial
  · show (2#32).getLsbD 1 = true
    decide
  · show (_ : Word32).getLsbD 10 = true
    decide

/-- Both enabled (V60), `scounteren` clear (V61) and `mcounteren` clear (V62). -/
theorem test_witness_UserCounterAccessNeedsBothEnables :
    (small .rv32 .U 1 1 0 0).virt = false ∧ (small .rv32 .U 1 1 0 0).mode = .U ∧
    NamesCounter (small .rv32 .U 1 1 0 0) (.counter 0) 0 ∧
    UserEnabled (small .rv32 .U 1 1 0 0) 0 ∧ ¬ UserEnabled (small .rv32 .U 0 0xFFFFFFFF 0 0) 0 ∧
    ¬ UserEnabled (small .rv32 .U 0x7FD 0 0 0) 0 := by
  refine ⟨by decide, by decide, ⟨by decide, by decide⟩, ?_⟩
  unfold UserEnabled
  decide

/-- The edges of the hardwired indices (V63, V68, V69) and of the others. -/
theorem test_witness_HardwiredCountersAreClosedToUserMode :
    (small .rv32 .U 0x7FD 0xFFFFFFFF 0 0).mode = .U ∧
    NamesCounter (small .rv32 .U 0x7FD 0xFFFFFFFF 0 0) (Instr.csr (.csrrs 14 (.counter 11) 0)) 11 ∧
    ((1 : CounterIndex) = fieldTM ∧ 11 ≤ (11 : CounterIndex).val ∧ 11 ≤ (31 : CounterIndex).val) ∧
    ((0 : CounterIndex) ≠ fieldTM ∧ (2 : CounterIndex) ≠ fieldTM ∧ (10 : CounterIndex) ≠ fieldTM ∧
      (10 : CounterIndex).val ≤ 10) :=
  ⟨by decide, ⟨by decide, by decide⟩, by decide, by decide⟩

/-- M-mode, and S-mode with the bit of `mcounteren` set and clear (V73, V70, V71). -/
theorem test_witness_SupervisorCounterAccessNeedsMcounteren :
    (NamesCounter (small .rv32 .M 0 0 0 0) (.counter 31) 31 ∧ (small .rv32 .M 0 0 0 0).mode = .M) ∧
    (NamesCounter (small .rv32 .S 0 1 0 0) (.counter 0) 0 ∧ (small .rv32 .S 0 1 0 0).mode = .S ∧
      (small .rv32 .S 0 1 0 0).mcounteren.getLsbD (0 : CounterIndex).val = true) ∧
    (small .rv32 .S 0x7FD 0 0 0).mode = .S ∧
      (small .rv32 .S 0x7FD 0 0 0).mcounteren.getLsbD (0 : CounterIndex).val = false :=
  ⟨⟨⟨by decide, by decide⟩, by decide⟩, ⟨⟨by decide, by decide⟩, by decide⟩, by decide⟩

theorem test_witness_ScounterenDoesNotGateSupervisorCounters :
    (small .rv32 .S 0x7FD 1 0 0).mode ≠ .U ∧ counterIndexOf (Instr.csr (.csrrs 10 (.counter 0) 0)) = some 0 := by decide

/-- Both widths (V77, V78). -/
theorem test_witness_UpperHalvesAreGatedAsLowerHalves :
    (small .rv32 .U 1 1 0 0).xlen = .rv32 ∧ (small .rv64 .U 1 1 0 0).xlen = .rv64 ∧
    (small .rv64 .U 1 1 0 0).virt = false ∧
    nextIs (runWord 0xC8002573 (small .rv32 .U 1 1 0 0)) (fun t => t.draws == 1) = true ∧
    refusalIs (runWord 0xC8002573 (small .rv64 .U 1 1 0 0)) (.unknownCsr 0xC80#12) = true := by decide

/-- V90. -/
theorem test_witness_UnknownCsrNumbersAreRefused :
    (small .rv32 .M 0 0 0 0).virt = false ∧
    refusalIs (runWord 0x30602573 (small .rv32 .M 0 0 0 0)) (.unknownCsr 0x306#12) = true := by decide

/-- V50: the fault, its cause, and the state's word at `pc`. -/
theorem test_witness_FaultCarriesTheWordAtPc :
    step faultingState = .fault (.illegalInstruction 0x10602573#32) := eq_of_faultIs (by decide)

/-- A write in S-mode that completes, and counters named there. -/
theorem test_witness_WriteGovernsTheNextAccess :
    MayAccessScounteren (small .rv32 .S 0 0xFFFFFFFF 0x7FD 0) ∧
    NamesCounter (small .rv32 .S 0 0xFFFFFFFF 0x7FD 0) (.counter 10) 10 ∧
    (∃ t, exec (.csrrw 0 .scounteren 10) (small .rv32 .S 0 0xFFFFFFFF 0x7FD 0) = .next t) ∧
    (∃ t, exec (.csrrci 0 .scounteren 1#5) (small .rv32 .S 0 0xFFFFFFFF 0x7FD 0) = .next t) := by
  refine ⟨by unfold MayAccessScounteren; decide, ⟨by decide, by decide⟩, ?_, ?_⟩
  · obtain ⟨t, h, -⟩ := exists_of_nextIs
      (r := exec (.csrrw 0 .scounteren 10) (small .rv32 .S 0 0xFFFFFFFF 0x7FD 0)) (p := fun _ => true) (by decide)
    exact ⟨t, h⟩
  · obtain ⟨t, h, -⟩ := exists_of_nextIs
      (r := exec (.csrrci 0 .scounteren 1#5) (small .rv32 .S 0 0xFFFFFFFF 0x7FD 0)) (p := fun _ => true) (by decide)
    exact ⟨t, h⟩

theorem test_witness_ClearingScounterenClosesEveryCounter :
    MayAccessScounteren (small .rv64 .M 0x7FD 0xFFFFFFFF 0 0) ∧
    NamesCounter (small .rv64 .M 0x7FD 0xFFFFFFFF 0 0) (Instr.csr (.csrrs 10 (.counter 10) 0)) 10 :=
  ⟨by unfold MayAccessScounteren; decide, by decide, by decide⟩

/-- Two values that differ in TM and, with `mcounteren.IR` clear, in IR. -/
theorem test_witness_UserModeCannotTellScounterenApart :
    (small .rv32 .U 0 0xFFFFFFFB 0 0).mode = .U ∧
    0x007#32 &&& (small .rv32 .U 0 0xFFFFFFFB 0 0).mcounteren &&& 0x7FD#32
      = 0x001#32 &&& (small .rv32 .U 0 0xFFFFFFFB 0 0).mcounteren &&& 0x7FD#32 := by decide

theorem test_witness_ResetLeavesUserAccessOpen :
    fieldType fieldCY = .rw ∧ fieldType 3 = .rw ∧ fieldType 10 = .rw ∧ fieldType 11 = .ro := by decide

theorem test_witness_EveryStepKeepsTheInvariant : readingState.Inv ∧ ∃ t, step readingState = .next t := by
  refine ⟨⟨?_, ?_, ?_, by decide, ?_, ?_⟩, test_witness_StepChangesOnlyPcDestinationAndCsr⟩
  · unfold RoFieldsZero
    decide
  · unfold FitsXlen
    decide
  · unfold FitsXlen
    decide
  · exact placeWord_wf _ _ List.Pairwise.nil
  · decide

end Sys2Proof.Tests
end

/-! What a completed instruction leaves in `scounteren`, and from that what stays in the register along a run
(R14, R53). -/

namespace Sys2Proof.Machine

/-! ### What a completed instruction did -/

/-- A completed instruction accessed `scounteren` in S-mode or M-mode, or was a permitted read of a counter in a form
that does not write (R108, R120). -/
theorem exec_next_cases {i : Instr} {s t : State} (h : exec i s = .next t) :
    (i.csr = .scounteren ∧ MayAccessScounteren s ∧
      t = accessScounteren i.rd (readsCsr i) (writesCsr i) (newValue s i) s) ∨
    (∃ k, s.virt = false ∧ NamesCounter s i.csr k ∧ writesCsr i = false ∧ MayReadCounter s k ∧
      t = readCounter i.rd s) := by
  have hv : s.virt = false := by
    by_contra on
    rw [exec_virt (by simpa using on)] at h
    cases h
  rcases csr_cases s i.csr with named | ⟨k, named⟩ | absent
  · have may : MayAccessScounteren s := by
      refine ⟨hv, fun user => ?_⟩
      rw [raises_scounteren named hv user] at h
      cases h
    rw [exec_scounteren named may] at h
    cases h
    exact .inl ⟨named, may, rfl⟩
  · rw [exec_namesCounter hv named] at h
    split_ifs at h with permitted
    cases h
    exact .inr ⟨k, hv, named, permitted.1, (counterAccessible_iff s k).1 permitted.2, rfl⟩
  · rw [exec_meaningless hv absent] at h
    cases h

/-- An instruction writes `scounteren` when it names it in a form that writes (R81). -/
theorem writesScounteren_iff (i : Instr) :
    writesScounteren i = true ↔ i.csr = .scounteren ∧ writesCsr i = true := by
  cases i <;> simp [writesScounteren, writesCsr, Instr.csr, writesUnlessX0, writesUnlessZero]

/-- A completed instruction that writes `scounteren` stores the masked new value there, and every other one leaves
the register as it is (R17, R81). -/
theorem exec_next_scounteren {i : Instr} {s t : State} (h : exec i s = .next t) :
    t.scounteren = if writesScounteren i then scounterenWrite ((newValue s i (csrRead s)).setWidth 32)
      else s.scounteren := by
  simp only [writesScounteren_iff]
  rcases exec_next_cases h with ⟨named, -, rfl⟩ | ⟨k, -, -, reads, -, rfl⟩
  · simp [named]
  · simp [reads, readCounter]

/-- No instruction leaves the modes in which `scounteren` may be accessed (R54, R126). -/
theorem exec_next_mayAccess {i : Instr} {s t : State} (h : exec i s = .next t) (may : MayAccessScounteren s) :
    MayAccessScounteren t := by
  obtain ⟨mode, virt⟩ : t.mode = s.mode ∧ t.virt = s.virt := by
    rcases exec_next_cases h with ⟨-, -, rfl⟩ | ⟨k, -, -, -, -, rfl⟩
    · obtain ⟨-, mode, virt, -⟩ := accessScounteren_frame i.rd (readsCsr i) (writesCsr i) (newValue s i) s
      exact ⟨mode, virt⟩
    · obtain ⟨-, mode, virt, -⟩ := readCounter_frame i.rd s
      exact ⟨mode, virt⟩
  rwa [MayAccessScounteren, mode, virt]

/-! ### Inductions over runs -/

/-- What every step keeps holds at the end of a run when it holds at its start. -/
theorem Reaches.keeps {P : State → Prop} (kept : ∀ {s t : State}, P s → step s = .next t → P t) {s t : State}
    (run : Reaches s t) (start : P s) : P t := by
  induction run with
  | refl => exact start
  | head h _ ih => exact ih (kept start h)

/-- A quiet run leaves `scounteren` as it is, and ends where the register may be accessed if it starts there. -/
theorem QuietReaches.keeps_scounteren {s t : State} (run : QuietReaches s t) (may : MayAccessScounteren s) :
    t.scounteren = s.scounteren ∧ MayAccessScounteren t := by
  induction run with
  | refl => exact ⟨rfl, may⟩
  | head fetched quiet h _ ih =>
    rw [step_of_fetch fetched] at h
    obtain ⟨same, ends⟩ := ih (exec_next_mayAccess h may)
    exact ⟨by rw [same, exec_next_scounteren h, quiet]; rfl, ends⟩

/-! ### The RW bits -/

/-- An RW bit of a written value is the bit given to the write (R14, R17). -/
theorem scounterenWrite_getLsbD_rw (v : Word32) {k : CounterIndex} (writable : fieldType k = .rw) :
    (scounterenWrite v).getLsbD k.val = v.getLsbD k.val := by
  rw [scounterenWrite, BitVec.getLsbD_and, wmask_getLsbD]
  simp [writable]

/-- A bit of `CsrRead` is the bit of the register's value (R16). -/
theorem csrRead_getLsbD (s : State) (k : CounterIndex) :
    (csrRead s).getLsbD k.val = (scounterenRead s.scounteren).getLsbD k.val := by
  have : k.val < 64 := by omega
  simp [csrRead, this]

/-- `csrr rd, scounteren` puts what `CsrRead` gives into `rd` (R83). -/
theorem exec_csrr_scounteren {s : State} {rd : Reg} (may : MayAccessScounteren s) (nonzero : rd ≠ 0) :
    ∃ t, exec (.csrrs rd .scounteren 0) s = .next t ∧ readX t rd = csrRead s := by
  refine ⟨_, exec_scounteren rfl may, ?_⟩
  rw [accessScounteren_readX, if_pos ⟨rfl, rfl, nonzero⟩]

/-- Settles O20: the write stores the RW bits, a quiet run keeps the register and the right to read it, and the read
returns what is stored. -/
theorem writableBitsAreRetainedUntilTheNextWrite : Obligations.WritableBitsAreRetainedUntilTheNextWrite := by
  intro s rd rs1 may
  have written := exec_scounteren (i := .csrrw rd .scounteren rs1) rfl may
  refine ⟨_, written, fun u rd' run nonzero => ?_⟩
  obtain ⟨same, mayRead⟩ := run.keeps_scounteren (exec_next_mayAccess written may)
  obtain ⟨v, completes, read⟩ := exec_csrr_scounteren mayRead nonzero
  refine ⟨v, completes, fun k writable => ?_⟩
  have stored : u.scounteren = scounterenWrite ((readX s rs1).setWidth 32) :=
    same.trans (exec_next_scounteren written)
  rw [read, csrRead_getLsbD, stored, scounterenRead_scounterenWrite, scounterenWrite_getLsbD_rw _ writable]
  simp

/-! ### The RO fields -/

/-- The RO fields are 0 after reset, for every draw (R52, R53). -/
theorem resetFrom_roFieldsZero (xlen : Xlen) (drawn mcounteren : Word32) :
    RoFieldsZero (State.resetFrom xlen drawn mcounteren).scounteren :=
  scounterenWrite_roFields drawn

/-- Every step keeps the RO fields 0: it stores a masked value or leaves the register (R15, R17). -/
theorem step_keeps_roFieldsZero {s t : State} (zero : RoFieldsZero s.scounteren) (h : step s = .next t) :
    RoFieldsZero t.scounteren := by
  obtain ⟨i, -, run⟩ := step_next h
  rw [exec_next_scounteren run]
  split
  · exact scounterenWrite_roFields _
  · exact zero

/-- Settles O22: reset masks its draw, and each step keeps the fields 0. -/
theorem readOnlyFieldsStayZero : Obligations.ReadOnlyFieldsStayZero :=
  ⟨resetFrom_roFieldsZero, resetFrom_roFieldsZero _ _ _,
    fun _ _ zero run => run.keeps (P := fun s => RoFieldsZero s.scounteren) step_keeps_roFieldsZero zero⟩

end Sys2Proof.Machine

/-! The word of an instruction: its match and its CSR field under their masks (R70, R71). -/

namespace Sys2Proof

/-- Among the well-formed CSR operands only `scounteren` has the number `0x106` (R75). -/
theorem Csr.eq_scounteren_iff_addr {c : Csr} (wf : c.wellFormed = true) :
    c = .scounteren ↔ c.addr = 0x106#12 := by
  cases c with
  | scounteren => decide
  | counter k => revert k; decide
  | counterH k => revert k; decide
  | other a =>
    have unnamed : a ≠ 0x106#12 := by
      rintro rfl
      exact absurd wf (by decide)
    simpa [Csr.addr] using unnamed

section
variable (csr : BitVec 12) (src : BitVec 5) (f : BitVec 3) (rd : BitVec 5)

/-- A word made of fields, under a mask made of fields, is masked field by field. -/
theorem encodeFields_and_fields (csrMask : BitVec 12) (srcMask : BitVec 5) (fMask : BitVec 3) (rdMask : BitVec 5)
    (opMask : BitVec 7) :
    encodeFields csr src f rd &&& (csrMask ++ srcMask ++ fMask ++ rdMask ++ opMask)
      = (csr &&& csrMask) ++ (src &&& srcMask) ++ (f &&& fMask) ++ (rd &&& rdMask) ++ (systemOpcode &&& opMask) := by
  simp only [← BitVec.and_append]
  rfl

/-- The mask of R71's match keeps `funct3` and the opcode. -/
theorem encodeFields_and_matchMask : encodeFields csr src f rd &&& 0x707F#32 = encodeFields 0 0 f 0 := by
  have masked := encodeFields_and_fields csr src f rd 0#12 0#5 (BitVec.allOnes 3) 0#5 (BitVec.allOnes 7)
  simp only [BitVec.and_zero, BitVec.and_allOnes] at masked
  exact masked

/-- The mask of bits 31:20 keeps the CSR number. -/
theorem encodeFields_and_csrMask : encodeFields csr src f rd &&& 0xFFF00000#32 = csr ++ 0#20 := by
  have masked := encodeFields_and_fields csr src f rd (BitVec.allOnes 12) 0#5 0#3 0#5 0#7
  simp only [BitVec.and_zero, BitVec.and_allOnes] at masked
  refine masked.trans (BitVec.eq_of_toNat_eq ?_)
  simp only [append_toNat, BitVec.toNat_ofNat]
  omega

/-- Bits 31:20 of a word hold `0x106` when its CSR number is `0x106`. -/
theorem encodeFields_and_csrMask_eq_iff :
    encodeFields csr src f rd &&& 0xFFF00000#32 = 0x10600000#32 ↔ csr = 0x106#12 := by
  rw [encodeFields_and_csrMask]
  constructor
  · intro word
    have field := congrArg (BitVec.extractLsb' 20 12) word
    rwa [BitVec.extractLsb'_append_eq_left] at field
  · rintro rfl
    rfl

end

/-- The word of every instruction is made of fields, with the number of its CSR in bits 31:20 (R70). -/
theorem encode_eq_encodeFields (i : Instr) : ∃ src f rd, encode i = encodeFields i.csr.addr src f rd := by
  cases i <;> exact ⟨_, _, _, rfl⟩

/-- Settles O1: the six words by the formula of their fields, the matches and the CSR number under the masks. -/
theorem encodingIsTheFormulaOfTheFormat : Obligations.EncodingIsTheFormulaOfTheFormat := by
  refine ⟨fun rd rs1 uimm csr => ?_, fun i wf => ?_⟩
  · simp only [encode, encodeFields_toNat, encodeFields_and_matchMask, bitsOfReg_toNat]
    and_intros <;> rfl
  · obtain ⟨src, f, rd, word⟩ := encode_eq_encodeFields i
    rw [word, encodeFields_and_csrMask_eq_iff]
    exact Csr.eq_scounteren_iff_addr wf

end Sys2Proof

/-! The six instructions on `scounteren`: one statement of what a completed access leaves, and what each form stores
(R80 to R90). -/

namespace Sys2Proof.Machine

/-! ### What a completed access leaves -/

/-- `advancePc` on a state of the same width and `pc` moves `pc` on by one instruction (R59). -/
theorem pcAdvanced_of_pc {s t : State} (h : t.pc = toXlen s.xlen (s.pc + 4)) : PcAdvanced s t := by
  have width : 2 ^ s.xlen.bits ∣ 2 ^ 64 := by cases s.xlen <;> decide
  rw [PcAdvanced, h, toXlen_toNat, BitVec.toNat_add, Nat.mod_mod_of_dvd _ width]
  rfl

/-- A form that does not read the CSR has the destination `x0` (R81). -/
theorem rd_eq_zero_of_not_reads {i : Instr} (h : ¬ readsCsr i = true) : i.rd = 0 := by
  cases i <;> simp_all [readsCsr, Instr.rd]

/-- Accessing `scounteren` writes its old value to the destination and to no other register; a form that does not
read has no destination to write (R81). -/
theorem accessScounteren_regWritten (i : Instr) (writes : Bool) (new : Word → Word) (s : State) :
    RegWritten s (accessScounteren i.rd (readsCsr i) writes new s) i.rd (csrRead s) := by
  intro q
  rw [accessScounteren_readX]
  by_cases reads : readsCsr i = true
  · simp [reads]
  · have rd0 := rd_eq_zero_of_not_reads reads
    rw [if_neg fun h => reads h.1, if_neg fun h => h.2 (h.1.trans rd0)]

/-- What an instruction on `scounteren` leaves stored there: the masked new value in a writing form, the old bits in
the others (R17, R81). -/
def storedBy (i : Instr) (s : State) : Word32 :=
  if writesCsr i then scounterenWrite ((newValue s i (csrRead s)).setWidth 32) else s.scounteren

/-- In S-mode and M-mode an instruction on `scounteren` completes, stores what its form says, and leaves what every
access leaves (R80, R120). -/
theorem exec_scounterenAccess {s : State} {i : Instr} (named : i.csr = .scounteren) (may : MayAccessScounteren s)
    {new : Word32} (stored : storedBy i s = new) :
    ∃ t, exec i s = .next t ∧ ScounterenAccess s t i.rd new := by
  obtain ⟨xlen, mode, virt, mcounteren, program, draws, pc⟩ :=
    accessScounteren_frame i.rd (readsCsr i) (writesCsr i) (newValue s i) s
  refine ⟨_, exec_scounteren named may, ?_, accessScounteren_regWritten i _ _ s, pcAdvanced_of_pc pc,
    ⟨xlen, mode, virt, mcounteren, fun a => by rw [program]⟩, draws⟩
  rw [accessScounteren_scounteren, ← stored, storedBy]

/-! ### What each form stores -/

/-- An immediate as a source has the immediate's value in its low 32 bits (R73). -/
theorem srcImm_setWidth (uimm : BitVec 5) : (srcImm uimm).setWidth 32 = uimm.setWidth 32 :=
  BitVec.setWidth_setWidth_of_le _ (by decide)

/-- The low 32 bits of what `CsrRead` gives are the value of the register (R16). -/
theorem csrRead_setWidth (s : State) : (csrRead s).setWidth 32 = scounterenRead s.scounteren := by
  rw [csrRead, BitVec.setWidth_setWidth_of_le _ (by decide), BitVec.setWidth_eq]

/-- Setting bits in the value read and writing it back sets them in the stored bits, under the mask (R83, R86). -/
theorem scounterenWrite_csrRead_or (s : State) (v : Word) :
    scounterenWrite ((csrRead s ||| v).setWidth 32) = (s.scounteren ||| v.setWidth 32) &&& 0x7FD#32 := by
  rw [BitVec.setWidth_or, csrRead_setWidth, scounterenWrite, scounterenRead, wmask, BitVec.and_or_distrib_right,
    BitVec.and_assoc, BitVec.and_self, ← BitVec.and_or_distrib_right]

/-- Clearing bits in the value read and writing it back clears them in the stored bits, under the mask (R84, R87). -/
theorem scounterenWrite_csrRead_andNot (s : State) (v : Word) :
    scounterenWrite ((csrRead s &&& ~~~v).setWidth 32) = s.scounteren &&& ~~~(v.setWidth 32) &&& 0x7FD#32 := by
  rw [BitVec.setWidth_and, csrRead_setWidth, BitVec.setWidth_not (by decide), scounterenWrite, scounterenRead, wmask,
    BitVec.and_assoc s.scounteren, BitVec.and_comm 0x7FD#32, ← BitVec.and_assoc, BitVec.and_assoc _ 0x7FD#32,
    BitVec.and_self]

/-- The mask leaves bits 0, 2, 3 and 4 of an immediate (R85). -/
theorem scounterenWrite_imm (uimm : BitVec 5) : scounterenWrite (uimm.setWidth 32) = uimm.setWidth 32 &&& 0x1D#32 := by
  revert uimm; decide

/-- A register form that sets or clears writes unless its source is `x0` (R81). -/
theorem ite_writesUnlessX0 (rs1 : Reg) (written kept : Word32) :
    (if writesUnlessX0 rs1 then written else kept) = if rs1 = 0 then kept else written := by
  rw [← ite_not]
  simp only [Bool.not_eq_true, writesUnlessX0_eq_false]

/-- An immediate form that sets or clears writes unless its immediate is 0 (R81). -/
theorem ite_writesUnlessZero (uimm : BitVec 5) (written kept : Word32) :
    (if writesUnlessZero uimm then written else kept) = if uimm = 0 then kept else written := by
  rw [← ite_not]
  simp only [Bool.not_eq_true, writesUnlessZero_eq_false]

section
variable (rd rs1 : Reg) (csr : Csr) (uimm : BitVec 5) (s : State)

theorem storedBy_csrrw : storedBy (.csrrw rd csr rs1) s = (readX s rs1).setWidth 32 &&& 0x7FD#32 := rfl

theorem storedBy_csrrs : storedBy (.csrrs rd csr rs1) s
    = if rs1 = 0 then s.scounteren else (s.scounteren ||| (readX s rs1).setWidth 32) &&& 0x7FD#32 := by
  simp only [storedBy, writesCsr, newValue, srcReg, scounterenWrite_csrRead_or, ite_writesUnlessX0]

theorem storedBy_csrrc : storedBy (.csrrc rd csr rs1) s
    = if rs1 = 0 then s.scounteren else s.scounteren &&& ~~~((readX s rs1).setWidth 32) &&& 0x7FD#32 := by
  simp only [storedBy, writesCsr, newValue, srcReg, scounterenWrite_csrRead_andNot, ite_writesUnlessX0]

theorem storedBy_csrrwi : storedBy (.csrrwi rd csr uimm) s = uimm.setWidth 32 &&& 0x1D#32 := by
  simp only [storedBy, writesCsr, newValue, srcImm_setWidth, scounterenWrite_imm, if_true]

theorem storedBy_csrrsi : storedBy (.csrrsi rd csr uimm) s
    = if uimm = 0 then s.scounteren else (s.scounteren ||| uimm.setWidth 32) &&& 0x7FD#32 := by
  simp only [storedBy, writesCsr, newValue, scounterenWrite_csrRead_or, srcImm_setWidth, ite_writesUnlessZero]

theorem storedBy_csrrci : storedBy (.csrrci rd csr uimm) s
    = if uimm = 0 then s.scounteren else s.scounteren &&& ~~~(uimm.setWidth 32) &&& 0x7FD#32 := by
  simp only [storedBy, writesCsr, newValue, scounterenWrite_csrRead_andNot, srcImm_setWidth, ite_writesUnlessZero]

end

/-! ### The six instructions -/

/-- Settles O12 by `exec_scounterenAccess`: `csrrw` stores the source under the mask. -/
theorem csrrwReadsAndWritesScounteren : Obligations.CsrrwReadsAndWritesScounteren := fun rd rs1 =>
  ⟨encodeFields_and_matchMask .., fun _ virt user => raises_scounteren rfl virt user,
    fun s may => exec_scounterenAccess rfl may (storedBy_csrrw rd rs1 _ s)⟩

/-- Settles O13 by `exec_scounterenAccess`: `csrrs` sets the bits of a source other than `x0`. -/
theorem csrrsReadsAndSetsScounteren : Obligations.CsrrsReadsAndSetsScounteren := fun rd rs1 =>
  ⟨encodeFields_and_matchMask .., fun _ virt user => raises_scounteren rfl virt user,
    fun s may => exec_scounterenAccess rfl may (storedBy_csrrs rd rs1 _ s)⟩

/-- Settles O14 by `exec_scounterenAccess`: `csrrc` clears the bits of a source other than `x0`. -/
theorem csrrcReadsAndClearsScounteren : Obligations.CsrrcReadsAndClearsScounteren := fun rd rs1 =>
  ⟨encodeFields_and_matchMask .., fun _ virt user => raises_scounteren rfl virt user,
    fun s may => exec_scounterenAccess rfl may (storedBy_csrrc rd rs1 _ s)⟩

/-- Settles O15 by `exec_scounterenAccess`: `csrrwi` stores the immediate under the mask of its four RW bits. -/
theorem csrrwiReadsAndWritesScounteren : Obligations.CsrrwiReadsAndWritesScounteren := fun rd uimm =>
  ⟨encodeFields_and_matchMask .., fun _ virt user => raises_scounteren rfl virt user,
    fun s may => exec_scounterenAccess rfl may (storedBy_csrrwi rd _ uimm s)⟩

/-- Settles O16 by `exec_scounterenAccess`: `csrrsi` sets the bits of an immediate other than 0. -/
theorem csrrsiReadsAndSetsScounteren : Obligations.CsrrsiReadsAndSetsScounteren := fun rd uimm =>
  ⟨encodeFields_and_matchMask .., fun _ virt user => raises_scounteren rfl virt user,
    fun s may => exec_scounterenAccess rfl may (storedBy_csrrsi rd _ uimm s)⟩

/-- Settles O17 by `exec_scounterenAccess`: `csrrci` clears the bits of an immediate other than 0. -/
theorem csrrciReadsAndClearsScounteren : Obligations.CsrrciReadsAndClearsScounteren := fun rd uimm =>
  ⟨encodeFields_and_matchMask .., fun _ virt user => raises_scounteren rfl virt user,
    fun s may => exec_scounterenAccess rfl may (storedBy_csrrci rd _ uimm s)⟩

/-- An access to `scounteren` stores its new value and puts the old one into a destination other than `x0` (R80). -/
theorem ScounterenAccess.stored_and_read {s t : State} {rd : Reg} {new : Word32} (access : ScounterenAccess s t rd new)
    (nonzero : rd ≠ 0) : t.scounteren = new ∧ readX t rd = (s.scounteren &&& 0x7FD#32).setWidth 64 := by
  obtain ⟨stored, written, -⟩ := access
  exact ⟨stored, (written rd).trans (if_pos ⟨rfl, nonzero⟩)⟩

/-- Settles O18: each register form with `rd = rs1`, whose new value is computed from the state before the access. -/
theorem sourceIsReadBeforeDestinationIsWritten : Obligations.SourceIsReadBeforeDestinationIsWritten := by
  intro s r may nonzero
  obtain ⟨-, -, swap⟩ := csrrwReadsAndWritesScounteren r r
  obtain ⟨-, -, set⟩ := csrrsReadsAndSetsScounteren r r
  obtain ⟨-, -, clear⟩ := csrrcReadsAndClearsScounteren r r
  refine ⟨(swap s may).imp ?_, (set s may).imp ?_, (clear s may).imp ?_⟩ <;> rintro t ⟨completes, access⟩
  · exact ⟨completes, access.stored_and_read nonzero⟩
  · exact ⟨completes, by simpa only [if_neg nonzero] using access.stored_and_read nonzero⟩
  · exact ⟨completes, by simpa only [if_neg nonzero] using access.stored_and_read nonzero⟩

end Sys2Proof.Machine

/-! The decoder against the encoder: CSR numbers and operands, words and instructions (R70 to R79). -/

namespace Sys2Proof

/-! ### CSR numbers -/

/-- An unknown number is a well-formed operand when it is outside the table of R75. -/
theorem Csr.wellFormed_other_iff (a : BitVec 12) :
    (Csr.other a).wellFormed = true ↔
      a.toNat ≠ 0x106 ∧ ¬(0xC00 ≤ a.toNat ∧ a.toNat ≤ 0xC1F) ∧ ¬(0xC80 ≤ a.toNat ∧ a.toNat ≤ 0xC9F) := by
  simp only [Csr.wellFormed, Csr.isCounterNumber, Csr.isCounterHNumber, Bool.and_eq_true, Bool.not_eq_true',
    ← Bool.not_eq_true, decide_eq_true_eq, bne_iff_ne, ne_eq, BitVec.toNat_eq, and_assoc]
  exact Iff.rfl

/-- The upper seven bits of a CSR number fix a range of 32 numbers. -/
theorem Csr.extractLsb'_five_seven_eq_iff (a : BitVec 12) (b : BitVec 7) :
    a.extractLsb' 5 7 = b ↔ b.toNat * 32 ≤ a.toNat ∧ a.toNat ≤ b.toNat * 32 + 31 := by
  have := a.isLt
  simp only [BitVec.toNat_eq, BitVec.extractLsb'_toNat, Nat.shiftRight_eq_div_pow]
  omega

/-- A number names an operand in its one spelling (R75). -/
theorem Csr.ofAddr_wellFormed (a : BitVec 12) : (Csr.ofAddr a).wellFormed = true := by
  unfold Csr.ofAddr
  split_ifs with scounteren counter counterH
  · rfl
  · rfl
  · rfl
  · rw [Csr.extractLsb'_five_seven_eq_iff] at counter counterH
    exact (Csr.wellFormed_other_iff a).2 ⟨fun h => scounteren (BitVec.eq_of_toNat_eq h), counter, counterH⟩

/-- A well-formed operand is what its number names (R75). -/
theorem Csr.ofAddr_addr {c : Csr} (wf : c.wellFormed = true) : Csr.ofAddr c.addr = c := by
  cases c with
  | scounteren => decide
  | counter k => revert k; decide
  | counterH k => revert k; decide
  | other a =>
    obtain ⟨scounteren, counter, counterH⟩ := (Csr.wellFormed_other_iff a).1 wf
    rw [Csr.addr, Csr.ofAddr, if_neg fun h => scounteren (congrArg BitVec.toNat h),
      if_neg (mt (Csr.extractLsb'_five_seven_eq_iff a 0b1100000#7).1 counter),
      if_neg (mt (Csr.extractLsb'_five_seven_eq_iff a 0b1100100#7).1 counterH)]

/-- Numbers and well-formed operands correspond one to one (R75). -/
theorem Csr.ofAddr_eq_iff (a : BitVec 12) (c : Csr) : Csr.ofAddr a = c ↔ c.wellFormed = true ∧ a = c.addr := by
  constructor
  · rintro rfl
    exact ⟨Csr.ofAddr_wellFormed a, (Csr.addr_ofAddr a).symm⟩
  · rintro ⟨wf, rfl⟩
    exact Csr.ofAddr_addr wf

/-- The numbers of the counters are `0xC00` to `0xC1F` (R75). -/
theorem Csr.addr_counter_toNat (k : CounterIndex) : (Csr.counter k).addr.toNat = 0xC00 + k.val := by
  revert k; decide

/-- The numbers of the upper halves are `0xC80` to `0xC9F` (R75). -/
theorem Csr.addr_counterH_toNat (k : CounterIndex) : (Csr.counterH k).addr.toNat = 0xC80 + k.val := by
  revert k; decide

/-- Settles O6 from the correspondence of numbers and well-formed operands. -/
theorem csrNumbersNameTheirRegisters : Obligations.CsrNumbersNameTheirRegisters := by
  refine fun a => ⟨?_, fun k => ?_, fun k => ?_, fun b => ?_⟩ <;> rw [Csr.ofAddr_eq_iff]
  · simp [Csr.wellFormed, Csr.addr, BitVec.toNat_eq]
  · simp [Csr.wellFormed, BitVec.toNat_eq, Csr.addr_counter_toNat]
  · simp [Csr.wellFormed, BitVec.toNat_eq, Csr.addr_counterH_toNat]
  · rw [Csr.wellFormed_other_iff, Csr.addr, eq_comm (a := a), and_comm]
    refine and_congr_right ?_
    rintro rfl
    exact Iff.rfl

/-! ### Instruction words -/

/-- A well-formed instruction is what its word decodes to (R70 to R75). -/
theorem decodeWord_encode {i : Instr} (wf : i.wellFormed = true) : decodeWord (encode i) = .ok i := by
  have named : Csr.ofAddr i.csr.addr = i.csr := Csr.ofAddr_addr wf
  cases i <;> simp_all [encode, decodeWord, Instr.csr]

/-- Settles O2: the four bytes make the word again, and the word decodes to its instruction. -/
theorem decodeOfEncodeIsTheInstruction : Obligations.DecodeOfEncodeIsTheInstruction := by
  intro i rest wf
  rw [decode_bytesOfWord, decodeWord_encode wf]
  rfl

/-- The decoder refuses a word of another opcode (R79). -/
theorem decodeWord_of_opcode {w : Word32} (op : w.extractLsb' 0 7 ≠ systemOpcode) :
    decodeWord w = .error (.notSystemOpcode w) :=
  if_pos op

/-- The decoder refuses the two values of `funct3` that are no CSR instructions (R76, R79). -/
theorem decodeWord_of_funct3 {w : Word32} (op : w.extractLsb' 0 7 = systemOpcode)
    (f : w.extractLsb' 12 3 = 0b000#3 ∨ w.extractLsb' 12 3 = 0b100#3) :
    decodeWord w = .error (.notCsrFunct3 w) := by
  rcases f with f | f <;> simp [decodeWord, op, f]

/-- The other values of `funct3` are those of the six instructions (R71). -/
theorem csrFunct3_cases {f : BitVec 3} (f0 : f ≠ 0b000#3) (f4 : f ≠ 0b100#3) :
    f = 0b001#3 ∨ f = 0b010#3 ∨ f = 0b011#3 ∨ f = 0b101#3 ∨ f = 0b110#3 ∨ f = 0b111#3 := by
  revert f; decide

/-- The decoder reads every other word as the well-formed instruction whose word it is (R79). -/
theorem decodeWord_accepts {w : Word32} (op : w.extractLsb' 0 7 = systemOpcode)
    (f0 : w.extractLsb' 12 3 ≠ 0b000#3) (f4 : w.extractLsb' 12 3 ≠ 0b100#3) :
    ∃ i, decodeWord w = .ok i ∧ encode i = w ∧ i.wellFormed = true := by
  have word := encodeFields_of_fields op
  have wf := Csr.ofAddr_wellFormed (w.extractLsb' 20 12)
  rcases csrFunct3_cases f0 f4 with f | f | f | f | f | f <;>
    simpa [decodeWord, op, f, encode, Instr.wellFormed, Instr.csr, wf] using word

/-- The decoder refuses a word for its opcode, or for its `funct3`, or reads an instruction (R79). -/
theorem decodeWord_cases (w : Word32) :
    (w.extractLsb' 0 7 ≠ systemOpcode ∧ decodeWord w = .error (.notSystemOpcode w)) ∨
    (w.extractLsb' 0 7 = systemOpcode ∧ (w.extractLsb' 12 3 = 0b000#3 ∨ w.extractLsb' 12 3 = 0b100#3) ∧
      decodeWord w = .error (.notCsrFunct3 w)) ∨
    (w.extractLsb' 0 7 = systemOpcode ∧ ¬(w.extractLsb' 12 3 = 0b000#3 ∨ w.extractLsb' 12 3 = 0b100#3) ∧
      ∃ i, decodeWord w = .ok i ∧ encode i = w ∧ i.wellFormed = true) := by
  by_cases op : w.extractLsb' 0 7 = systemOpcode
  · by_cases f : w.extractLsb' 12 3 = 0b000#3 ∨ w.extractLsb' 12 3 = 0b100#3
    · exact .inr (.inl ⟨op, f, decodeWord_of_funct3 op f⟩)
    · exact .inr (.inr ⟨op, f, decodeWord_accepts op (fun h => f (.inl h)) (fun h => f (.inr h))⟩)
  · exact .inl ⟨op, decodeWord_of_opcode op⟩

/-- Settles O3 by the third case of `decodeWord_cases`. -/
theorem encodeOfDecodeIsTheWord : Obligations.EncodeOfDecodeIsTheWord := by
  intro w i decodes
  rcases decodeWord_cases w with ⟨-, refused⟩ | ⟨-, -, refused⟩ | ⟨-, -, j, reads, word, wf⟩
  · cases refused.symm.trans decodes
  · cases refused.symm.trans decodes
  · cases reads.symm.trans decodes
    exact ⟨word, wf⟩

/-- The opcode of a word under R70's mask. -/
theorem opcode_eq_iff (w : Word32) : w &&& 0x7F#32 = 0x73#32 ↔ w.extractLsb' 0 7 = systemOpcode := by
  have masked : (w &&& 0x7F#32).toNat = w.toNat % 2 ^ 7 := by
    rw [BitVec.toNat_and]
    exact Nat.and_two_pow_sub_one_eq_mod _ 7
  simp only [BitVec.toNat_eq, masked, BitVec.extractLsb'_toNat, Nat.shiftRight_zero]
  exact Iff.rfl

/-- Settles O4: the three cases of `decodeWord_cases` exclude each other. -/
theorem decodeRefusesExactlyTheOtherWords : Obligations.DecodeRefusesExactlyTheOtherWords := by
  intro w
  rw [ne_eq, opcode_eq_iff, ne_eq, ne_eq, ← not_or]
  rcases decodeWord_cases w with ⟨op, refused⟩ | ⟨op, f, refused⟩ | ⟨op, f, i, reads, -⟩
  · simp [op, refused]
  · simp [op, f, refused]
  · simp [op, f, reads]

/-- Settles O5 by running the decoder on each word. -/
theorem wordsOfTheSpecDecode : Obligations.WordsOfTheSpecDecode := by
  unfold Obligations.WordsOfTheSpecDecode
  decide

end Sys2Proof

/-! What the fetch finds and what a step does with it (R8, R63, R64, R69). -/

namespace Sys2Proof.Machine

/-- The fetch finds an instruction when `pc` is aligned and the bytes listed from `pc` on decode to it. -/
theorem fetchInstr_eq_ok_iff (s : State) (i : Instr) :
    fetchInstr s = .ok i ↔
      s.pc.toNat % 4 = 0 ∧ ∃ bs rest, fetchBytes s.program s.pc.toNat = some bs ∧ decode bs = .ok (i, rest) := by
  unfold fetchInstr
  by_cases aligned : s.pc.toNat % 4 = 0
  · rw [if_neg (not_not_intro aligned)]
    cases fetchBytes s.program s.pc.toNat with
    | none => simp
    | some bs =>
      rcases read : decode bs with _ | ⟨j, rest⟩ <;> simp [aligned, read]
  · simp [aligned]

/-- Settles O7: the fetch finds the instruction, and the step runs it. -/
theorem stepRunsTheDecodedInstruction : Obligations.StepRunsTheDecodedInstruction := by
  intro s b0 b1 b2 b3 i rest aligned h0 h1 h2 h3 decodes
  have bytes := fetchBytes_eq_some.2 ⟨b0, b1, b2, b3, h0, h1, h2, h3, rfl⟩
  exact step_of_fetch ((fetchInstr_eq_ok_iff s i).2 ⟨aligned, _, rest, bytes, decodes⟩)

/-- A fetch of four bytes finds none when one of them is not listed (R69). -/
theorem fetchBytes_eq_none {m : List Host.Cell} {a : Nat} (h : ∃ k < 4, readByte m (a + k) = none) :
    fetchBytes m a = none := by
  obtain ⟨k, small, missing⟩ := h
  refine Option.eq_none_iff_forall_ne_some.2 fun bs found => ?_
  obtain ⟨b0, b1, b2, b3, h0, h1, h2, h3, -⟩ := fetchBytes_eq_some.1 found
  interval_cases k <;> simp_all

/-- Settles O8: the fetch gives the reason, and the step is refused for it. -/
theorem stepOutsideTheProgramIsRefused : Obligations.StepOutsideTheProgramIsRefused := by
  refine fun s => ⟨fun aligned missing => step_of_no_fetch ?_, fun misaligned => step_of_no_fetch ?_⟩
  · rw [fetchInstr, if_neg (not_not_intro aligned), fetchBytes_eq_none missing]
  · rw [fetchInstr, if_pos misaligned]

/-- The bits of a whole word are the word. -/
theorem tableWord_toNat (w : Word32) : tableWord 32 w.toNat = w := by
  apply BitVec.eq_of_toNat_eq
  have := w.isLt
  simp only [tableWord, BitVec.toNat_ofNat]
  omega

/-- Settles O9: the fetch finds the bytes placed at `pc`, and they decode to the instruction. -/
theorem placedInstructionRunsNext : Obligations.PlacedInstructionRunsNext := by
  intro s i aligned wf
  refine step_of_fetch ((fetchInstr_eq_ok_iff _ _).2 ⟨aligned, bytesOfWord (encode i), [], ?_, ?_⟩)
  · rw [State.withFetchWord, tableWord_toNat]
    exact fetchBytes_writeBytes ..
  · simpa using decodeOfEncodeIsTheInstruction i [] wf

/-- Settles O10: an instruction is refused as virtualised, and a step without one for the fetch's reason. -/
theorem virtualisedStepsAreRefused : Obligations.VirtualisedStepsAreRefused := by
  intro s virt
  have runs {i : Instr} (fetched : fetchInstr s = .ok i) : step s = .refused .virtualised :=
    (step_of_fetch fetched).trans (exec_virt virt i)
  refine ⟨exec_virt virt, ?_, fun _ => runs⟩
  cases fetched : fetchInstr s with
  | ok i => exact ⟨_, runs fetched⟩
  | error r => exact ⟨r, step_of_no_fetch fetched⟩

/-! ### What a fault carries -/

/-- If an instruction faults, the fault has its word (R121). -/
theorem exec_fault {i : Instr} {s : State} {r : Fault} (h : exec i s = .fault r) :
    r = .illegalInstruction (encode i) := by
  rw [exec_eq_csrExecute] at h
  exact (csrExecute_fault h).2

/-- Four bytes that decode make a word that decodes (R63). -/
theorem decodeWord_of_decode {b0 b1 b2 b3 : Byte} {i : Instr} {rest : List Byte}
    (h : decode [b0, b1, b2, b3] = .ok (i, rest)) : decodeWord (wordOfBytes b0 b1 b2 b3) = .ok i := by
  rw [decode] at h
  cases read : decodeWord (wordOfBytes b0 b1 b2 b3) with
  | error e => simp [read, Except.map] at h
  | ok j =>
    simp only [read, Except.map, Except.ok.injEq, Prod.mk.injEq] at h
    rw [h.1]

/-- The value recorded with a fault is its word or zero (R122). -/
theorem recordedValue_eq (w : Word32) :
    recordedValue (.illegalInstruction w) = w ∨ recordedValue (.illegalInstruction w) = 0 := by
  rw [recordedValue]
  exact ite_eq_or_eq ..

/-- Settles O34: the fault has the word of the instruction fetched, which encodes back to the word at `pc`. -/
theorem faultCarriesTheWordAtPc : Obligations.FaultCarriesTheWordAtPc := by
  intro s r faults
  obtain ⟨i, fetched, raised⟩ := step_fault faults
  obtain ⟨-, bs, rest, bytes, decodes⟩ := (fetchInstr_eq_ok_iff s i).1 fetched
  obtain ⟨b0, b1, b2, b3, h0, h1, h2, h3, rfl⟩ := fetchBytes_eq_some.1 bytes
  obtain ⟨word, -⟩ := encodeOfDecodeIsTheWord _ _ (decodeWord_of_decode decodes)
  obtain rfl : r = .illegalInstruction (wordOfBytes b0 b1 b2 b3) := word ▸ exec_fault raised
  exact ⟨b0, b1, b2, b3, h0, h1, h2, h3, rfl, rfl, recordedValue_eq _⟩

end Sys2Proof.Machine

/-! What a completed step leaves: its frame, the invariant, and when `scounteren` changes (R18, R58, R59, R69). -/

namespace Sys2Proof.Machine

/-! ### The frame of a completed instruction -/

/-- A value already cut to XLEN bits is not changed by the cut. -/
theorem toXlen_toXlen (xlen : Xlen) (v : Word) : toXlen xlen (toXlen xlen v) = toXlen xlen v := by
  apply BitVec.eq_of_toNat_eq
  simp only [toXlen_toNat, Nat.mod_mod]

/-- A completed instruction writes an XLEN-bit value to its destination and to no other register (R58). -/
theorem exec_next_regWritten {i : Instr} {s t : State} (h : exec i s = .next t) :
    ∃ v, RegWritten s t i.rd (toXlen s.xlen v) := by
  rcases exec_next_cases h with ⟨-, -, rfl⟩ | ⟨k, -, -, -, -, rfl⟩
  · have fits : toXlen s.xlen (csrRead s) = csrRead s := toXlen_setWidth _ _
    exact ⟨csrRead s, fits.symm ▸ accessScounteren_regWritten i _ _ s⟩
  · exact ⟨_, readCounter_readX i.rd s⟩

/-- A completed instruction keeps XLEN, the modes, `mcounteren` and the program text, and moves `pc` on (R80, R104). -/
theorem exec_next_frame {i : Instr} {s t : State} (h : exec i s = .next t) :
    t.xlen = s.xlen ∧ t.mode = s.mode ∧ t.virt = s.virt ∧ t.mcounteren = s.mcounteren ∧
      t.program = s.program ∧ t.pc = toXlen s.xlen (s.pc + 4) := by
  rcases exec_next_cases h with ⟨-, -, rfl⟩ | ⟨k, -, -, -, -, rfl⟩
  · obtain ⟨xlen, mode, virt, mcounteren, program, -, pc⟩ :=
      accessScounteren_frame i.rd (readsCsr i) (writesCsr i) (newValue s i) s
    exact ⟨xlen, mode, virt, mcounteren, program, pc⟩
  · obtain ⟨xlen, mode, virt, mcounteren, program, -, -, pc⟩ := readCounter_frame i.rd s
    exact ⟨xlen, mode, virt, mcounteren, program, pc⟩

/-- Settles O11 from the frame and the one register written. -/
theorem stepChangesOnlyPcDestinationAndCsr : Obligations.StepChangesOnlyPcDestinationAndCsr := by
  intro s t completes
  obtain ⟨i, fetched, runs⟩ := step_next completes
  obtain ⟨xlen, mode, virt, mcounteren, program, pc⟩ := exec_next_frame runs
  obtain ⟨v, written⟩ := exec_next_regWritten runs
  exact ⟨i, fetched, pcAdvanced_of_pc pc, ⟨xlen, mode, virt, mcounteren, fun a => by rw [program]⟩,
    fun r other => (written r).trans (if_neg fun h => other h.1), readX_zero t⟩

/-! ### The invariant -/

/-- A value cut to XLEN bits fits in them. -/
theorem fitsXlen_toXlen (xlen : Xlen) (v : Word) : FitsXlen xlen (toXlen xlen v) := by
  rw [FitsXlen, toXlen_toNat]
  exact Nat.mod_lt _ (Nat.two_pow_pos _)

/-- The next `pc` is a multiple of 4 when `pc` is (R64). -/
theorem pcAdvanced_aligned {s t : State} (advanced : PcAdvanced s t) (aligned : s.pc.toNat % 4 = 0) :
    t.pc.toNat % 4 = 0 := by
  have width : 4 ∣ 2 ^ s.xlen.bits := by cases s.xlen <;> decide
  rw [advanced, Nat.mod_mod_of_dvd _ width]
  omega

/-- Settles O41, clause by clause from the frame of a completed instruction. -/
theorem everyStepKeepsTheInvariant : Obligations.EveryStepKeepsTheInvariant := by
  intro s t inv completes
  obtain ⟨i, -, runs⟩ := step_next completes
  obtain ⟨xlen, -, -, -, program, pc⟩ := exec_next_frame runs
  obtain ⟨v, written⟩ := exec_next_regWritten runs
  refine ⟨step_keeps_roFieldsZero inv.roFields completes, fun r => ?_, ?_,
    pcAdvanced_aligned (pcAdvanced_of_pc pc) inv.pcAligned, ?_, ?_⟩
  · rw [xlen, written r]
    split
    · exact fitsXlen_toXlen _ _
    · exact inv.regsFit r
  · rw [xlen, pc]
    exact fitsXlen_toXlen _ _
  · exact program.symm ▸ inv.programWf
  · rw [program, xlen]
    exact inv.programFits

/-- Every register reads 0 after reset. -/
theorem readX_resetFrom (xlen : Xlen) (drawn mcounteren : Word32) (r : Reg) :
    readX (State.resetFrom xlen drawn mcounteren) r = 0 := by
  simp [readX]

/-- The state after reset meets the invariant, for every draw (R52, R53, R141). -/
theorem resetFrom_inv (xlen : Xlen) (drawn mcounteren : Word32) : (State.resetFrom xlen drawn mcounteren).Inv where
  roFields := resetFrom_roFieldsZero xlen drawn mcounteren
  regsFit r := by
    rw [readX_resetFrom]
    exact Nat.two_pow_pos _
  pcFits := Nat.two_pow_pos _
  pcAligned := rfl
  programWf := List.Pairwise.nil
  programFits c listed := by simp at listed

/-- Settles O40: reset is one of its draws. -/
theorem resetMeetsTheInvariant : Obligations.ResetMeetsTheInvariant :=
  ⟨resetFrom_inv _ _ _, resetFrom_inv⟩

/-! ### When `scounteren` changes -/

/-- Settles O23: only the access in S-mode or M-mode can change the register, and only in a writing form. -/
theorem scounterenChangesOnlyByItsWrites : Obligations.ScounterenChangesOnlyByItsWrites := by
  intro s t completes changed
  obtain ⟨i, fetched, runs⟩ := step_next completes
  have writes : writesScounteren i = true := by
    by_contra quiet
    exact changed ((exec_next_scounteren runs).trans (if_neg quiet))
  rcases exec_next_cases runs with ⟨-, ⟨-, notUser⟩, -⟩ | ⟨k, -, -, -, -, rfl⟩
  · exact ⟨notUser, i, fetched, writes⟩
  · obtain ⟨-, -, -, -, -, -, same, -⟩ := readCounter_frame i.rd s
    exact absurd same changed

end Sys2Proof.Machine

/-! The counters: which forms may read them and in which modes (R100 to R109), and exactly when an instruction raises
or is refused (R106, R120). -/

namespace Sys2Proof.Machine

/-! ### Which counters a mode may read -/

section
variable {s : State} {k : CounterIndex}

theorem mayReadCounter_machine (mode : s.mode = .M) : MayReadCounter s k := by
  simp only [MayReadCounter, mode]

theorem mayReadCounter_supervisor (mode : s.mode = .S) :
    MayReadCounter s k ↔ s.mcounteren.getLsbD k.val = true := by
  simp only [MayReadCounter, mode]

theorem mayReadCounter_user (mode : s.mode = .U) : MayReadCounter s k ↔ UserEnabled s k := by
  simp only [MayReadCounter, mode]

end

/-- U-mode is given a counter by both enable bits, at the RW fields alone (R100, R102). -/
theorem userEnabled_iff (s : State) (k : CounterIndex) :
    UserEnabled s k ↔
      s.scounteren.getLsbD k.val = true ∧ s.mcounteren.getLsbD k.val = true ∧ fieldType k = .rw := by
  have mask : (0x7FD#32).getLsbD k.val = decide (fieldType k = .rw) := wmask_getLsbD k
  simp only [UserEnabled, BitVec.getLsbD_and, mask, Bool.and_eq_true, decide_eq_true_eq, and_assoc]

/-- The RW fields are those of bits 0 to 10 but for TM (R13). -/
theorem fieldType_eq_rw_iff (k : CounterIndex) : fieldType k = .rw ↔ k ≠ fieldTM ∧ k.val ≤ 10 := by
  revert k; decide

/-! ### An instruction on a counter -/

section
variable {s : State} {i : Instr} {k : CounterIndex}

/-- An instruction completes on a counter in a form that does not write, in a mode that may read it (R103, R109). -/
theorem completes_namesCounter_iff (virt : s.virt = false) (named : NamesCounter s i.csr k) :
    Completes i s ↔ writesCsr i = false ∧ MayReadCounter s k := by
  rw [Completes, exec_namesCounter virt named, ← counterAccessible_iff]
  split_ifs with permitted <;> simp [permitted]

/-- An instruction that does not complete on a counter raises (R108). -/
theorem raises_namesCounter_iff (virt : s.virt = false) (named : NamesCounter s i.csr k) :
    Raises i s ↔ ¬ Completes i s := by
  rw [Completes, Raises, exec_namesCounter virt named]
  split_ifs <;> simp

/-- A form that writes raises on a counter in every mode (R103). -/
theorem raises_of_writesCsr (virt : s.virt = false) (named : NamesCounter s i.csr k) (writes : writesCsr i = true) :
    Raises i s := by
  rw [raises_namesCounter_iff virt named, completes_namesCounter_iff virt named, writes]
  exact fun h => Bool.noConfusion h.1

/-- In a mode that may not read a counter every instruction on it raises (R101, R105). -/
theorem raises_of_not_mayReadCounter (virt : s.virt = false) (named : NamesCounter s i.csr k)
    (denied : ¬ MayReadCounter s k) : Raises i s := by
  rw [raises_namesCounter_iff virt named, completes_namesCounter_iff virt named]
  exact fun h => denied h.2

end

section
variable {s : State} {rd : Reg} {csr : Csr} {i : Instr} {k : CounterIndex}

/-- A non-writing form completes on just the counters the mode may read (R109). -/
theorem completes_pureRead_iff (virt : s.virt = false) (named : NamesCounter s csr k) (pure : i ∈ pureReads rd csr) :
    Completes i s ↔ MayReadCounter s k := by
  obtain ⟨rfl, -, reads⟩ := pureReads_spec pure
  rw [completes_namesCounter_iff virt named]
  exact and_iff_right reads

/-- A non-writing form raises on the counters the mode may not read (R101, R105). -/
theorem raises_pureRead_iff (virt : s.virt = false) (named : NamesCounter s csr k) (pure : i ∈ pureReads rd csr) :
    Raises i s ↔ ¬ MayReadCounter s k := by
  rw [← completes_pureRead_iff virt named pure]
  obtain ⟨rfl, -, -⟩ := pureReads_spec pure
  exact raises_namesCounter_iff virt named

end

/-- Settles O24: each writing form raises, and each completed form is among those that do not write. -/
theorem writingFormsRaiseOnCounters : Obligations.WritingFormsRaiseOnCounters := by
  intro s csr k virt named
  refine ⟨fun rd rs1 => ?_, fun rd uimm => ?_, fun rd rs1 nonzero => ?_, fun rd uimm nonzero => ?_, ?_, ?_⟩
  · exact raises_of_writesCsr (i := .csrrw rd csr rs1) virt named rfl
  · exact raises_of_writesCsr (i := .csrrwi rd csr uimm) virt named rfl
  · have writes : writesUnlessX0 rs1 = true := eq_true_of_ne_false (mt (writesUnlessX0_eq_false rs1).1 nonzero)
    exact ⟨raises_of_writesCsr (i := .csrrs rd csr rs1) virt named writes,
      raises_of_writesCsr (i := .csrrc rd csr rs1) virt named writes⟩
  · have writes : writesUnlessZero uimm = true :=
      eq_true_of_ne_false (mt (writesUnlessZero_eq_false uimm).1 nonzero)
    exact ⟨raises_of_writesCsr (i := .csrrsi rd csr uimm) virt named writes,
      raises_of_writesCsr (i := .csrrci rd csr uimm) virt named writes⟩
  · rintro i rfl completes
    exact (mem_pureReads_iff i).2 ((completes_namesCounter_iff virt named).1 completes).1
  · exact fun machine rd i pure => (completes_pureRead_iff virt named pure).2 (mayReadCounter_machine machine)

/-- A counter read leaves what `CounterRead` says (R104). -/
theorem readCounter_counterRead (rd : Reg) (s : State) : CounterRead s (readCounter rd s) rd := by
  obtain ⟨xlen, mode, virt, mcounteren, program, draws, scounteren, pc⟩ := readCounter_frame rd s
  refine ⟨fun q => ?_, draws, pcAdvanced_of_pc pc, ⟨xlen, mode, virt, mcounteren, fun a => by rw [program]⟩,
    scounteren⟩
  rw [readCounter_readX, counterValue, toXlen_toXlen]

/-- Settles O25: a permitted non-writing form is a counter read. -/
theorem permittedCounterReadIsADraw : Obligations.PermittedCounterReadIsADraw := by
  intro s csr k virt named may rd i pure
  obtain ⟨rfl, rfl, reads⟩ := pureReads_spec pure
  refine ⟨readCounter i.rd s, ?_, readCounter_counterRead i.rd s⟩
  rw [exec_namesCounter virt named, if_pos ⟨reads, (counterAccessible_iff s k).2 may⟩]

/-- Settles O26: in U-mode the counters that may be read are the enabled ones. -/
theorem userCounterAccessNeedsBothEnables : Obligations.UserCounterAccessNeedsBothEnables := by
  intro s csr k virt user named rd i pure
  rw [completes_pureRead_iff virt named pure, raises_pureRead_iff virt named pure, mayReadCounter_user user]
  exact ⟨id, id⟩

/-- Every field of an all-ones `mcounteren` is set. -/
theorem allOnes_getLsbD (k : CounterIndex) : (0xFFFFFFFF#32).getLsbD k.val = true := by
  revert k; decide

/-- In U-mode a counter with an RW field can be read once its bit is set and `mcounteren` is all ones (R100). -/
theorem completes_rdcounter {s : State} {k : CounterIndex} (rd : Reg) (virt : s.virt = false) (user : s.mode = .U)
    (writable : fieldType k = .rw) (opened : s.scounteren.getLsbD k.val = true)
    (all : s.mcounteren = 0xFFFFFFFF#32) : Completes (.csrrs rd (.counter k) 0) s := by
  refine (completes_namesCounter_iff virt ⟨rfl, rfl⟩).2 ⟨rfl, ?_⟩
  rw [mayReadCounter_user user, userEnabled_iff, all]
  exact ⟨opened, allOnes_getLsbD k, writable⟩

/-- Settles O27: the RO fields enable nothing, and each RW field can be enabled on both sides. -/
theorem hardwiredCountersAreClosedToUserMode : Obligations.HardwiredCountersAreClosedToUserMode := by
  refine ⟨fun s i k virt user named hardwired => ?_, fun k notTime small s rd virt user => ?_⟩
  · refine raises_of_not_mayReadCounter virt named ?_
    rw [mayReadCounter_user user, userEnabled_iff, fieldType_eq_rw_iff]
    rintro ⟨-, -, notTime, small⟩
    rcases hardwired with time | large
    · exact notTime time
    · omega
  · have writable : fieldType k = .rw := (fieldType_eq_rw_iff k).2 ⟨notTime, small⟩
    exact completes_rdcounter rd virt user writable ((wmask_getLsbD k).trans (decide_eq_true writable)) rfl

/-- Settles O28 by which counters M-mode and S-mode may read. -/
theorem supervisorCounterAccessNeedsMcounteren : Obligations.SupervisorCounterAccessNeedsMcounteren := by
  intro s csr k virt named rd i pure
  rw [completes_pureRead_iff virt named pure, raises_pureRead_iff virt named pure]
  refine ⟨mayReadCounter_machine, fun supervisor => (mayReadCounter_supervisor supervisor).2,
    fun supervisor clear => mt (mayReadCounter_supervisor supervisor).1 (ne_true_of_eq_false clear)⟩

/-! ### Both halves of a counter, and unknown numbers -/

/-- Each form of `formsOn` has the CSR it is given, and whether it writes does not hang on the CSR (R71, R81). -/
theorem formsOn_spec {rd rs1 : Reg} {uimm : BitVec 5} {f : Csr → Instr} (h : f ∈ formsOn rd rs1 uimm) (c d : Csr) :
    (f c).csr = c ∧ writesCsr (f c) = writesCsr (f d) := by
  simp only [formsOn, List.mem_cons, List.not_mem_nil, or_false] at h
  rcases h with rfl | rfl | rfl | rfl | rfl | rfl <;> exact ⟨rfl, rfl⟩

/-- Settles O30: with XLEN 32 both halves name the counter, with XLEN 64 the upper half names nothing. -/
theorem upperHalvesAreGatedAsLowerHalves : Obligations.UpperHalvesAreGatedAsLowerHalves := by
  intro s k rd rs1 uimm f form
  obtain ⟨lower, -⟩ := formsOn_spec form (.counter k) .scounteren
  obtain ⟨upper, sameForm⟩ := formsOn_spec form (.counterH k) (.counter k)
  refine ⟨fun rv32 => ?_, fun rv64 virt => ?_⟩
  · cases virt : s.virt with
    | true => simp [Completes, Raises, exec_virt virt]
    | false =>
      have lowerNamed : NamesCounter s (f (.counter k)).csr k := by rw [lower]; exact ⟨rfl, rfl⟩
      have upperNamed : NamesCounter s (f (.counterH k)).csr k := by
        rw [upper]
        exact ⟨rfl, by rw [rv32]; rfl⟩
      have completes : Completes (f (.counterH k)) s ↔ Completes (f (.counter k)) s := by
        rw [completes_namesCounter_iff virt upperNamed, completes_namesCounter_iff virt lowerNamed, sameForm]
      rw [raises_namesCounter_iff virt upperNamed, raises_namesCounter_iff virt lowerNamed]
      exact ⟨completes, not_congr completes⟩
  · have absent : csrExists s.xlen (f (.counterH k)).csr = false := by rw [upper, rv64]; rfl
    rw [exec_meaningless virt absent, upper]
    congr 2
    exact BitVec.eq_of_toNat_eq ((Csr.addr_counterH_toNat k).trans (by simp; omega))

/-- Settles O31: an operand the spec gives no meaning is refused by its number. -/
theorem unknownCsrNumbersAreRefused : Obligations.UnknownCsrNumbersAreRefused := by
  refine ⟨fun s a rd rs1 uimm virt f form => ?_, by decide, by decide, by decide⟩
  obtain ⟨named, -⟩ := formsOn_spec form (.other a) .scounteren
  rw [exec_meaningless virt (by rw [named]; rfl), named]
  rfl

/-! ### Exactly when an instruction raises or is refused -/

/-- Settles O32: each kind of CSR operand in turn. -/
theorem instructionRaisesExactlyWhenDenied : Obligations.InstructionRaisesExactlyWhenDenied := by
  intro i s r
  constructor
  · intro faults
    obtain rfl := exec_fault faults
    have virt : s.virt = false := by
      by_contra on
      cases (exec_virt (by simpa using on) i).symm.trans faults
    refine ⟨rfl, virt, ?_⟩
    rcases csr_cases s i.csr with named | ⟨k, named⟩ | absent
    · refine .inl ⟨named, ?_⟩
      by_contra notUser
      cases (exec_scounteren named ⟨virt, notUser⟩).symm.trans faults
    · have incomplete := (raises_namesCounter_iff virt named).1 faults
      rw [completes_namesCounter_iff virt named, ← mem_pureReads_iff] at incomplete
      exact .inr ⟨k, named, not_and_or.1 incomplete⟩
    · cases (exec_meaningless virt absent).symm.trans faults
  · rintro ⟨rfl, virt, ⟨named, user⟩ | ⟨k, named, denied⟩⟩
    · exact raises_scounteren named virt user
    · refine (raises_namesCounter_iff virt named).2 ?_
      rw [completes_namesCounter_iff virt named, ← mem_pureReads_iff]
      exact not_and_or.2 denied

/-- Settles O33: with virtualisation off, an instruction on `scounteren` or on a counter completes or raises. -/
theorem instructionIsRefusedExactlyWhenMeaningless : Obligations.InstructionIsRefusedExactlyWhenMeaningless := by
  intro i s
  cases virt : s.virt with
  | true => exact ⟨fun _ => .inl rfl, fun _ => ⟨_, exec_virt virt i⟩⟩
  | false =>
    refine ⟨fun ⟨r, refused⟩ => .inr ?_, fun h => ⟨_, exec_meaningless virt (by simpa using h)⟩⟩
    rcases csr_cases s i.csr with named | ⟨k, named⟩ | absent
    · by_cases user : s.mode = .U
      · cases (raises_scounteren named virt user).symm.trans refused
      · cases (exec_scounteren named ⟨virt, user⟩).symm.trans refused
    · rw [exec_namesCounter virt named] at refused
      split_ifs at refused
    · exact absent

end Sys2Proof.Machine

/-! What an access check sees of `scounteren`: nothing in S-mode and M-mode, the enabled bits in U-mode, and a write
from the next instruction on (R19, R66, R102, R110, R143). -/

namespace Sys2Proof.Machine

/-! ### Another value of `scounteren` -/

/-- A counter read does not look at `scounteren` (R104). -/
theorem readCounter_withScounteren (rd : Reg) (s : State) (v : Word32) :
    readCounter rd { s with scounteren := v } = { readCounter rd s with scounteren := v } := by
  unfold readCounter writeX
  split_ifs <;> rfl

/-- With another value in `scounteren` an instruction has the same outcome, when the instruction does not access the
register and the same counters may be read (R19). -/
theorem exec_withScounteren {s : State} {i : Instr} {v : Word32} (denied : i.csr = .scounteren → s.mode = .U)
    (same : ∀ k, counterAccessible { s with scounteren := v } k = counterAccessible s k) :
    exec i { s with scounteren := v } = mapNext (fun t => { t with scounteren := v }) (exec i s) := by
  obtain virt | virt := s.virt.eq_false_or_eq_true
  · rw [exec_virt virt, exec_virt (s := { s with scounteren := v }) virt, mapNext]
  · rcases csr_cases s i.csr with named | ⟨k, named⟩ | absent
    · have raises (u : State) (off : u.virt = false) (user : u.mode = .U) :
          exec i u = .fault (.illegalInstruction (encode i)) := raises_scounteren named off user
      rw [raises s virt (denied named), raises { s with scounteren := v } virt (denied named), mapNext]
    · rw [exec_namesCounter virt named, exec_namesCounter (s := { s with scounteren := v }) virt named]
      simp only [same]
      split_ifs
      · rw [mapNext, readCounter_withScounteren]
      · rfl
    · rw [exec_meaningless virt absent, exec_meaningless (s := { s with scounteren := v }) virt absent, mapNext]

/-- Settles O29: outside U-mode `CounterAccessible` does not look at `scounteren`. -/
theorem scounterenDoesNotGateSupervisorCounters : Obligations.ScounterenDoesNotGateSupervisorCounters := by
  intro s i k v notUser index
  refine exec_withScounteren (fun named => ?_) fun j => ?_
  · rw [named] at index
    cases index
  · unfold counterAccessible
    cases mode : s.mode with
    | U => exact absurd mode notUser
    | S => rfl
    | M => rfl

/-- In U-mode two values of `scounteren` that agree on the enabled writable bits open the same counters (R102). -/
theorem counterAccessible_user_congr {s : State} (user : s.mode = .U) {v w : Word32}
    (agree : v &&& s.mcounteren &&& 0x7FD#32 = w &&& s.mcounteren &&& 0x7FD#32) (k : CounterIndex) :
    counterAccessible { s with scounteren := w } k = counterAccessible { s with scounteren := v } k := by
  have enabled (u : Word32) : MayReadCounter { s with scounteren := u } k ↔
      (u &&& s.mcounteren &&& 0x7FD#32).getLsbD k.val = true :=
    mayReadCounter_user (s := { s with scounteren := u }) user
  rw [Bool.eq_iff_iff, counterAccessible_iff, counterAccessible_iff, enabled, enabled, agree]

/-- Settles O37: the fetch does not look at `scounteren`, and the instruction has the same outcome. -/
theorem userModeCannotTellScounterenApart : Obligations.UserModeCannotTellScounterenApart := by
  intro s v w user agree
  have fetch : fetchInstr { s with scounteren := w } = fetchInstr { s with scounteren := v } := rfl
  cases found : fetchInstr { s with scounteren := v } with
  | ok i =>
    rw [step_of_fetch found, step_of_fetch (fetch.trans found)]
    exact exec_withScounteren (s := { s with scounteren := v }) (fun _ => user)
      (counterAccessible_user_congr user agree)
  | error r => rw [step_of_no_fetch found, step_of_no_fetch (fetch.trans found), mapNext]

/-! ### The instruction after a write -/

/-- What an access to `scounteren` leaves for the check of a counter in U-mode: the value stored, the same
`mcounteren`, the same names and virtualisation still off (R66). -/
theorem ScounterenAccess.user_check {s t : State} {rd : Reg} {new : Word32} (access : ScounterenAccess s t rd new)
    (virt : s.virt = false) {csr : Csr} {k : CounterIndex} (named : NamesCounter s csr k) :
    { t with mode := .U }.virt = false ∧ NamesCounter { t with mode := .U } csr k ∧
      (MayReadCounter { t with mode := .U } k ↔ (new &&& s.mcounteren &&& 0x7FD#32).getLsbD k.val = true) := by
  obtain ⟨stored, -, -, ⟨xlen, -, sameVirt, mcounteren, -⟩, -⟩ := access
  refine ⟨sameVirt.trans virt, ⟨named.1, ?_⟩, ?_⟩
  · exact xlen.symm ▸ named.2
  · rw [mayReadCounter_user rfl, UserEnabled, stored, mcounteren]

/-- The mask on a written value does not show under the mask of the check (R17, R102). -/
theorem masked_and_mcounteren (v mcounteren : Word32) :
    v &&& 0x7FD#32 &&& mcounteren &&& 0x7FD#32 = v &&& mcounteren &&& 0x7FD#32 := by
  rw [BitVec.and_assoc v, BitVec.and_comm 0x7FD#32, BitVec.and_assoc, BitVec.and_assoc, BitVec.and_self,
    BitVec.and_assoc]

/-- Settles O35: the check after the write reads the value the write stored. -/
theorem writeGovernsTheNextAccess : Obligations.WriteGovernsTheNextAccess := by
  intro s t rd may
  refine ⟨fun rs1 completes csr k rd' named i pure => ?_, fun completes rd' => ?_⟩
  · obtain ⟨-, -, write⟩ := csrrwReadsAndWritesScounteren rd rs1
    obtain ⟨t', completes', access⟩ := write s may
    cases completes'.symm.trans completes
    obtain ⟨virt, named', check⟩ := access.user_check may.1 named
    rw [masked_and_mcounteren] at check
    rw [completes_pureRead_iff virt named' pure, raises_pureRead_iff virt named' pure, check]
    exact ⟨id, ne_true_of_eq_false⟩
  · obtain ⟨-, -, clear⟩ := csrrciReadsAndClearsScounteren rd 1#5
    obtain ⟨t', completes', access⟩ := clear s may
    cases completes'.symm.trans completes
    obtain ⟨virt, named, check⟩ := access.user_check (csr := .counter 0) (k := 0) may.1 ⟨rfl, rfl⟩
    refine raises_of_not_mayReadCounter virt named ?_
    rw [check]
    simp

/-- Settles O36: `csrrw` from `x0` stores 0, which enables no counter. -/
theorem clearingScounterenClosesEveryCounter : Obligations.ClearingScounterenClosesEveryCounter := by
  intro s may
  obtain ⟨-, -, write⟩ := csrrwReadsAndWritesScounteren 0 0
  obtain ⟨t, completes, access⟩ := write s may
  refine ⟨t, completes, fun i k named => ?_⟩
  obtain ⟨virt, named', check⟩ := access.user_check may.1 named
  refine raises_of_not_mayReadCounter virt named' ?_
  rw [check]
  simp

/-! ### After reset -/

/-- A value whose RO fields are 0 is not changed by the mask (R18). -/
theorem RoFieldsZero.and_wmask {v : Word32} (zero : RoFieldsZero v) : v &&& wmask = v :=
  calc v &&& wmask
    _ = v &&& wmask ||| v &&& 0xFFFFF802#32 := by rw [show v &&& 0xFFFFF802#32 = 0 from zero]; simp
    _ = v &&& (wmask ||| 0xFFFFF802#32) := BitVec.and_or_distrib_left.symm
    _ = v := BitVec.and_allOnes

/-- Settles O38: a legal value is left by its own draw. -/
theorem resetAdmitsExactlyTheLegalValues : Obligations.ResetAdmitsExactlyTheLegalValues := by
  intro xlen mcounteren v
  constructor
  · rintro ⟨drawn, rfl⟩
    exact resetFrom_roFieldsZero xlen drawn mcounteren
  · exact fun legal => ⟨v, legal.and_wmask⟩

/-- Settles O39: a draw of all ones enables the counter and a draw of 0 does not. -/
theorem resetLeavesUserAccessOpen : Obligations.ResetLeavesUserAccessOpen := by
  intro xlen k rd writable
  refine ⟨⟨0xFFFFFFFF#32, ?_⟩, ⟨0#32, ?_⟩⟩
  · refine completes_rdcounter rd rfl rfl writable ?_ rfl
    rw [resetFrom_scounteren, ← scounterenWrite, scounterenWrite_getLsbD_rw _ writable]
    exact allOnes_getLsbD k
  · refine raises_of_not_mayReadCounter (k := k) rfl ⟨rfl, rfl⟩ ?_
    rw [mayReadCounter_user rfl, userEnabled_iff]
    simp

end Sys2Proof.Machine

/-! The register under reads and writes in a row, and its RO bits (R15, R16, R17, R82). -/

namespace Sys2Proof.Machine

/-- Settles O19: the second swap reads what the first stored and stores what the first read. -/
theorem swappingTwiceKeepsTheWritableBits : Obligations.SwappingTwiceKeepsTheWritableBits := by
  intro s r may nonzero
  obtain ⟨-, -, swap⟩ := csrrwReadsAndWritesScounteren r r
  obtain ⟨t, first, firstAccess⟩ := swap s may
  obtain ⟨u, second, secondAccess⟩ := swap t (exec_next_mayAccess first may)
  obtain ⟨tStored, tRead⟩ := firstAccess.stored_and_read nonzero
  obtain ⟨uStored, uRead⟩ := secondAccess.stored_and_read nonzero
  refine ⟨t, u, first, second, ?_, ?_⟩
  · rw [uStored, tRead, BitVec.setWidth_setWidth_of_le _ (by decide), BitVec.setWidth_eq, BitVec.and_assoc,
      BitVec.and_self]
  · rw [uRead, tStored, BitVec.and_assoc, BitVec.and_self]

/-- A bit of a written value is the bit given to the write at an RW field and 0 at an RO field (R14, R15, R17). -/
theorem scounterenWrite_getLsbD (v : Word32) (k : CounterIndex) :
    (scounterenWrite v).getLsbD k.val = (decide (fieldType k = .rw) && v.getLsbD k.val) := by
  rw [scounterenWrite, BitVec.getLsbD_and, wmask_getLsbD, Bool.and_comm]

/-- An RO field is written as 0; reading masks as writing does, so it reads 0 as well (R15, R16). -/
theorem scounterenWrite_getLsbD_ro (v : Word32) {k : CounterIndex} (ro : fieldType k = .ro) :
    (scounterenWrite v).getLsbD k.val = false := by
  rw [scounterenWrite_getLsbD, ro]
  rfl

/-- An RO field reads 0, whatever is stored (R16). -/
theorem scounterenRead_getLsbD_ro (v : Word32) {k : CounterIndex} (ro : fieldType k = .ro) :
    (scounterenRead v).getLsbD k.val = false :=
  scounterenWrite_getLsbD_ro v ro

/-- Settles O21 by the bits of a written value and of a value read. -/
theorem readOnlyBitsIgnoreWritesAndReadZero : Obligations.ReadOnlyBitsIgnoreWritesAndReadZero := by
  refine fun s may => ⟨fun rd rs1 => ?_, fun i named => ?_, fun rd nonzero => ?_⟩
  · obtain ⟨-, -, write⟩ := csrrwReadsAndWritesScounteren rd rs1
    obtain ⟨t, completes, stored, -⟩ := write s may
    refine ⟨t, completes, fun k => ?_⟩
    have source : ((readX s rs1).setWidth 32).getLsbD k.val = (readX s rs1).getLsbD k.val := by simp
    rw [stored, ← source]
    exact scounterenWrite_getLsbD _ k
  · have completes := exec_scounteren named may
    refine ⟨_, completes, fun k ro => ⟨fun writes => ?_, scounterenRead_getLsbD_ro _ ro⟩⟩
    rw [exec_next_scounteren completes, if_pos writes]
    exact scounterenWrite_getLsbD_ro _ ro
  · obtain ⟨t, completes, read⟩ := exec_csrr_scounteren may nonzero
    refine ⟨t, completes, fun k ro => ?_⟩
    rw [read, csrRead_getLsbD]
    exact scounterenRead_getLsbD_ro _ ro

end Sys2Proof.Machine
